-- ==== Sys2Proof/Word.lean ====
section
/-! DEFINITION. The words of the block: an element of the store, a command word, an opcode and a status code, each a
bit vector whose bit 0 is the least significant bit (spec/00_scope.md section 5, 92_eei_decisions.md D17). -/

namespace Sys2Proof

/-- One element: `DW = 8` uninterpreted bits, never signed and never an operand of arithmetic (R6). -/
abbrev Element := BitVec 8

/-- One command word of `CMDW = 4 + DW = 12` bits (R60). -/
abbrev Command := BitVec 12

/-- The 4-bit opcode field of a command word (R60). -/
abbrev Opcode := BitVec 4

/-- A 3-bit status code, as the register `last_status` holds it and `rsp` carries it (R63). -/
abbrev StatusCode := BitVec 3

end Sys2Proof
end

