-- ==== Sys2Proof/Config.lean ====
section
/-! DEFINITION. What is fixed when the hardware is built: the open parameters `CW` and `CAPACITY` with the bound that
makes a pair of them a configuration (R5, R7, R169), and the constants derived from them (R8, R60, R64). `DW` is 8 (R6)
and stands in Word.lean. -/

namespace Sys2Proof

/-- A configuration: the counter width `CW` and the capacity, with the proof of `1 <= CAPACITY <= 2^CW - 1`. A pair
without that proof is no configuration of this hardware (R7, 93_implementation_defined.md U6), so none can be built. -/
structure Config where
  counterWidth : Nat
  capacity     : Nat
  capacity_pos : 1 ≤ capacity
  capacity_le  : capacity ≤ 2 ^ counterWidth - 1
  deriving DecidableEq, Repr

namespace Config

/-- `M = 2^CW`, the counter modulus (R8). -/
def modulus (c : Config) : Nat := 2 ^ c.counterWidth

/-- `R_WRAP = M mod CAPACITY` (R8). -/
def rWrap (c : Config) : Nat := c.modulus % c.capacity

/-- `WrapSafe`: `R_WRAP = 0`. It is not required of a configuration (R8). -/
abbrev WrapSafe (c : Config) : Prop := c.rWrap = 0

/-- `RW = max(CW, DW, 3)`, the width of the response word (R64). -/
def responseWidth (c : Config) : Nat := max (max c.counterWidth 8) 3

/-- `CFG_DOC4` (spec/00_scope.md section 3): the source's own scenario capacity; `WrapSafe` holds. -/
def doc4 : Config := ⟨3, 4, by decide, by decide⟩

/-- `CFG_ODD3` (spec/00_scope.md section 3): `R_WRAP = 2`; it shows the wrap hazard. -/
def odd3 : Config := ⟨3, 3, by decide, by decide⟩

/-- `CFG_REF200` (spec/00_scope.md section 3): the source's default capacity at the smallest legal counter width. -/
def ref200 : Config := ⟨8, 200, by decide, by decide⟩

/-- The smallest legal configuration, `CAPACITY = 1`, `CW = 1` (spec/95_test_vectors.md section 3). -/
def one : Config := ⟨1, 1, by decide, by decide⟩

end Config

end Sys2Proof
end

