-- ==== Sys2Proof/Syntax.lean ====
section
/-! DEFINITION. The nine operations (spec/opcode_table.json), the six declared status codes (R63), the reason a command
word is no operation (R65), the three roles that issue operations (R150) and the lines of a listing (R68). -/

namespace Sys2Proof

/-- The nine operations (R9, R61). Only PUT has an operand (R62); the `data` bits of the other eight are no part of the
operation (R67). -/
inductive Instr where
  | init
  | getstatus
  | isfull
  | isempty
  | peek
  | get
  | put (v : Element)
  | count
  | refresh
  deriving DecidableEq, Repr

/-- The declared status codes, in the source's order. Only the first three are ever produced (R63, R66). -/
inductive Status where
  | ok
  | empty
  | full
  | nullHandler
  | nullBuffer
  | illegalSize
  deriving DecidableEq, Repr

/-- Why a command word stands for no operation. -/
inductive DecodeError where
  /-- the opcode is one of `4'h9` to `4'hF` (R65) -/
  | reservedOpcode (op : Opcode)
  deriving DecidableEq, Repr

/-- The roles of the environment (R150). The block cannot tell them apart (R149): no operation reads one. -/
inductive Agent where
  | producer
  | consumer
  | supervisor
  deriving DecidableEq, Repr

/-- A line of a listing (R68): one operation with the agent that issues it, or `RESET`, which is one step with
`rst = 1` and has no command word. -/
inductive Line where
  | reset
  | op (issuer : Agent) (i : Instr)
  deriving DecidableEq, Repr

/-- The mnemonic of an operation (R61, R68). -/
def Instr.mnemonic : Instr → String
  | .init => "INIT"
  | .getstatus => "GETSTATUS"
  | .isfull => "ISFULL"
  | .isempty => "ISEMPTY"
  | .peek => "PEEK"
  | .get => "GET"
  | .put _ => "PUT"
  | .count => "COUNT"
  | .refresh => "REFRESH"

/-- A query changes no state of the block: COUNT, ISFULL, ISEMPTY, PEEK, GETSTATUS (spec/00_scope.md section 6). -/
def Instr.isQuery : Instr → Bool
  | .init => false
  | .getstatus => true
  | .isfull => true
  | .isempty => true
  | .peek => true
  | .get => false
  | .put _ => false
  | .count => true
  | .refresh => false

end Sys2Proof
end

