-- ==== Sys2Proof/Machine/State.lean ====
section
/-! DEFINITION. The state of the machine. The five items of R20 (`store`, `head`, `tail`, `lastStatus`, `out`) are the
architectural state of the block; beside them stand the configuration it was built with, the response of the step just
taken and the responses so far (R64, R173), and the environment's operations still to come (R28, R53). All of it is
plain data. -/

namespace Sys2Proof.Machine

/-- The abstract result of an operation, a tagged value (R64). -/
inductive Result where
  /-- INIT and REFRESH return nothing -/
  | nothing
  /-- GETSTATUS, GET, PUT -/
  | status (code : StatusCode)
  /-- ISFULL, ISEMPTY -/
  | flag (b : Bool)
  /-- PEEK -/
  | element (e : Element)
  /-- COUNT: a value in `0 .. M-1` -/
  | count (n : Nat)
  deriving DecidableEq, Repr

/-- What the outside drives at one coming rising edge of `clk`: the reset pin, and the agent whose next operation is
presented with `cmd_valid = 1`, if any (R70, R53). -/
structure Edge where
  rst   : Bool
  grant : Option Agent
  deriving DecidableEq, Repr

/-- Why the machine stops with a fault. -/
inductive Fault where
  /-- Raised by `State.memRead` and `State.memWrite` on a slot outside `0 .. CAPACITY-1`, for which R41 defines no
  access. Safe: a slot index is always `c mod CAPACITY` (R43), so no operation raises it. -/
  | slotOutOfRange (slot : Nat)
  deriving DecidableEq, Repr

/-- Why the machine gives a step no meaning. -/
inductive Refusal where
  /-- Raised by `exec` for an instruction that has no meaning yet: none. Safe. -/
  | notModelled (mnemonic : String)
  /-- Raised by `step` when the presented command has a reserved opcode `4'h9` to `4'hF`: the spec tells a model to
  refuse the run (R65, 93_implementation_defined.md U1). Safe: the hardware goes on. -/
  | reservedOpcode (op : Opcode)
  deriving DecidableEq, Repr

/-- The machine. -/
structure State where
  /-- the configuration; no operation and no reset writes it (R5, R26) -/
  cfg         : Config
  /-- the slots that do not hold 0, as (slot, element) pairs with strictly rising slots (R21, R40) -/
  store       : List Host.Cell
  /-- the write counter, a `CW`-bit unsigned value (R22) -/
  head        : Nat
  /-- the read counter, a `CW`-bit unsigned value (R23) -/
  tail        : Nat
  /-- the status register; before the first reset it may hold any 3-bit value (R24, R31) -/
  lastStatus  : StatusCode
  /-- the holding register behind the port `out_data` (R25) -/
  out         : Element
  /-- the response of the step just taken: `none` is `rsp_valid = 0` (R64, R70) -/
  response    : Option Result
  /-- the responses of the run so far, one per operation, in the order performed (R173) -/
  responses   : List Result
  /-- the command words the producer has still to issue, in its order (R28, R53, R150) -/
  producerQ   : List Command
  /-- the command words the consumer has still to issue, in its order -/
  consumerQ   : List Command
  /-- the command words the supervisor has still to issue, in its order -/
  supervisorQ : List Command
  /-- which agent is served at each coming edge, and when reset is asserted: the order no source fixes (R53) -/
  schedule    : List Edge
  deriving DecidableEq, Repr

/-- The machine right after a reset of a block of configuration `cfg` whose `out` register holds `out0` (R30): both
counters 0, every slot 0, status OK. Reset does not write `out` (R25, R160): its value is the free input `out0`. Nothing
has been answered and no operation is waiting. -/
def State.initial (cfg : Config) (out0 : Element) : State where
  cfg := cfg
  store := []
  head := 0
  tail := 0
  lastStatus := 0#3
  out := out0
  response := none
  responses := []
  producerQ := []
  consumerQ := []
  supervisorQ := []
  schedule := []

/-- The state after reset. DESIGN CHOICE (unsafe): the configuration is CFG_REF200 (notes/assumptions/1.md) and `out` is
0 (notes/assumptions/2.md), both of which the spec leaves open. -/
def State.reset : State := State.initial Config.ref200 0#8

end Sys2Proof.Machine
end

