-- ==== Sys2Proof/Machine/Flags.lean ====
section
/-! DEFINITION. `occupancy_calculator`: the occupancy and the empty and full tests, which are functions of the two
counters and no registers (R27, R82 to R84), and the numbers of the status codes (R63). -/

namespace Sys2Proof.Machine

/-- `occ() = (head - tail) mod M`, the floor remainder of the integer difference (R82). -/
def State.occ (s : State) : Nat := (((s.head : Int) - (s.tail : Int)) % (s.cfg.modulus : Int)).toNat

/-- `empty() = (occ() == 0)` (R83). -/
def State.isEmpty (s : State) : Bool := s.occ == 0

/-- `full() = (occ() == CAPACITY)`: equality, not greater-or-equal (R84). -/
def State.isFull (s : State) : Bool := s.occ == s.cfg.capacity

/-- The value of a status code (R63). -/
def statusCode : Status → StatusCode
  | .ok => 0#3
  | .empty => 1#3
  | .full => 2#3
  | .nullHandler => 3#3
  | .nullBuffer => 4#3
  | .illegalSize => 5#3

/-- The name of a status value; 6 and 7 have none (R63). -/
def statusOfCode (c : StatusCode) : Option Status :=
  match c.toNat with
  | 0 => some .ok
  | 1 => some .empty
  | 2 => some .full
  | 3 => some .nullHandler
  | 4 => some .nullBuffer
  | 5 => some .illegalSize
  | _ => none

end Sys2Proof.Machine
end

