-- ==== Sys2Proof/Machine/Operands.lean ====
section
/-! DEFINITION. `counter_wraparound_logic`: the increment of a counter and the slot a counter value selects, and with
them the two addressing modes of the block, neither of which an agent supplies (R80, R81, R46). -/

namespace Sys2Proof.Machine

/-- `inc(c) = (c + 1) mod M` (R80). -/
def Counter.inc (cfg : Config) (c : Nat) : Nat := (c + 1) % cfg.modulus

/-- `idx(c) = c mod CAPACITY`, of the wrapped register value (R81). -/
def Counter.idx (cfg : Config) (c : Nat) : Nat := c % cfg.capacity

/-- The next-write slot `idx(head)` (R22). -/
def State.writeSlot (s : State) : Nat := Counter.idx s.cfg s.head

/-- The next-read slot `idx(tail)` (R23). -/
def State.readSlot (s : State) : Nat := Counter.idx s.cfg s.tail

/-- The slot of the `k`-th outstanding element, the oldest being the 0th (R91). -/
def State.slotAt (s : State) (k : Nat) : Nat := Counter.idx s.cfg ((s.tail + k) % s.cfg.modulus)

end Sys2Proof.Machine
end

