-- ==== Sys2Proof/Machine/Ops.lean ====
section
/-! DEFINITION. The named operations over the store and the registers: the memory primitives (R41), the response of an
operation (R64), the outcome that stands in the place of a trap (R146: the block has no exception, so there is no
exception entry and no return from one, R140, R147), and the two state changes that reset the block (R120, R121,
R160). -/

namespace Sys2Proof.Machine

/-- The element at an address of a sparse memory; an unlisted address holds 0, which is what every slot holds after
reset (R30). -/
def Memory.read : List Host.Cell → Nat → Element
  | [], _ => 0#8
  | (k, w) :: rest, a => if a < k then 0#8 else if a = k then w else Memory.read rest a

/-- The memory with the element at one address replaced; writing 0 removes the entry. -/
def Memory.write : List Host.Cell → Nat → Element → List Host.Cell
  | [], a, v => if v = 0#8 then [] else [(a, v)]
  | (k, w) :: rest, a, v =>
    if a < k then
      if v = 0#8 then (k, w) :: rest else (a, v) :: (k, w) :: rest
    else if a = k then
      if v = 0#8 then rest else (a, v) :: rest
    else
      (k, w) :: Memory.write rest a v

/-- The canonical form from a lowest address on: addresses strictly rising, no entry holding 0. -/
def Memory.wfFrom : Nat → List Host.Cell → Bool
  | _, [] => true
  | lo, (k, w) :: rest => decide (lo ≤ k) && decide (w ≠ 0#8) && Memory.wfFrom (k + 1) rest

/-- The canonical form of a memory. -/
def Memory.wf (m : List Host.Cell) : Bool := Memory.wfFrom 0 m

/-- Every listed address lies below a bound: the address space is `0 .. CAPACITY-1` (R40). -/
def Memory.below (bound : Nat) (m : List Host.Cell) : Bool := m.all fun c => decide (c.1 < bound)

/-- `MemRead(i, 1)`, defined only for `0 <= i <= CAPACITY-1` (R41). -/
def State.memRead (s : State) (i : Nat) : Except Fault Element :=
  if i < s.cfg.capacity then .ok (Memory.read s.store i) else .error (.slotOutOfRange i)

/-- `MemWrite(i, 1, v)`, defined only for `0 <= i <= CAPACITY-1` (R41). -/
def State.memWrite (s : State) (i : Nat) (v : Element) : Except Fault State :=
  if i < s.cfg.capacity then .ok { s with store := Memory.write s.store i v } else .error (.slotOutOfRange i)

/-- `head <- inc(head)` (R80). -/
def State.advanceHead (s : State) : State := { s with head := Counter.inc s.cfg s.head }

/-- `tail <- inc(tail)` (R80). -/
def State.advanceTail (s : State) : State := { s with tail := Counter.inc s.cfg s.tail }

/-- `out <- v` (R25). -/
def State.setOut (s : State) (v : Element) : State := { s with out := v }

/-- `last_status <- st` (R24). -/
def State.setStatus (s : State) (st : Status) : State := { s with lastStatus := statusCode st }

/-- `return r`: the operation's one response, `rsp_valid = 1` in this step (R64, R173). -/
def State.respond (s : State) (r : Result) : State :=
  { s with response := some r, responses := s.responses ++ [r] }

/-- The end of GET and PUT, in success and in failure: the status is written to `last_status` and returned (R101, R102).
A failure is this and nothing else, in the place of a trap (R146). -/
def State.report (s : State) (st : Status) : State :=
  (s.setStatus st).respond (.status (statusCode st))

/-- Both counters to 0 and the status to OK, the store as it was (R121). -/
def State.rewind (s : State) : State :=
  { s with head := 0, tail := 0, lastStatus := statusCode .ok }

/-- The state change of INIT, which is that of a hardware reset: `rewind`, and every slot 0. It reads no state and does
not write `out` (R120, R160). -/
def State.initialise (s : State) : State := { s.rewind with store := [] }

/-- A step in which no operation is performed: `rsp_valid = 0`, `rsp = 0`, nothing else (R163, R64). -/
def State.quiet (s : State) : State := { s with response := none }

/-- A step with `rst = 1`: the state change of INIT, and no response (R160, R161). -/
def State.hardReset (s : State) : State := s.initialise.quiet

end Sys2Proof.Machine
end

