-- ==== Sys2Proof/Machine/Control.lean ====
section
/-! DEFINITION. The control and status operations INIT, REFRESH and GETSTATUS (spec/42_control_status.md). None needs a
privilege, for the block has none (R149). -/

namespace Sys2Proof.Machine

/-- INIT: both counters 0, every slot 0, status OK, no result (R120). -/
def execInit (s : State) : Host.Outcome State Fault Refusal :=
  .next (s.initialise.respond .nothing)

/-- REFRESH: both counters 0, status OK, the store as it was, no result (R121, 90_conflicts.md C1). -/
def execRefresh (s : State) : Host.Outcome State Fault Refusal :=
  .next (s.rewind.respond .nothing)

/-- GETSTATUS returns `last_status` and leaves it as it is (R122). -/
def execGetstatus (s : State) : Host.Outcome State Fault Refusal :=
  .next (s.respond (.status s.lastStatus))

end Sys2Proof.Machine
end

