-- ==== Sys2Proof/Machine/Occupancy.lean ====
section
/-! DEFINITION. The occupancy queries COUNT, ISFULL and ISEMPTY (spec/40_counter_and_occupancy.md section 4). A query
writes no state of the block, `last_status` included (90_conflicts.md C2): it only answers. -/

namespace Sys2Proof.Machine

/-- COUNT returns `occ()` (R88). -/
def execCount (s : State) : Host.Outcome State Fault Refusal :=
  .next (s.respond (.count s.occ))

/-- ISFULL returns `full()` (R89). -/
def execIsfull (s : State) : Host.Outcome State Fault Refusal :=
  .next (s.respond (.flag s.isFull))

/-- ISEMPTY returns `empty()` (R90). -/
def execIsempty (s : State) : Host.Outcome State Fault Refusal :=
  .next (s.respond (.flag s.isEmpty))

end Sys2Proof.Machine
end

