-- ==== Sys2Proof/Machine/Transfer.lean ====
section
/-! DEFINITION. The data transfer operations PEEK, GET and PUT (spec/41_data_transfer.md). Every condition and every
value read is of the pre-state. -/

namespace Sys2Proof.Machine

/-- PEEK returns the oldest element without removing it, and 0 on an empty buffer, whatever the store holds (R100). -/
def execPeek (s : State) : Host.Outcome State Fault Refusal :=
  if s.isEmpty then
    .next (s.respond (.element 0#8))
  else
    match s.memRead s.readSlot with
    | .error f => .fault f
    | .ok v => .next (s.respond (.element v))

/-- GET removes the oldest element into `out`; on an empty buffer it reports EMPTY and changes nothing more (R101). -/
def execGet (s : State) : Host.Outcome State Fault Refusal :=
  if s.isEmpty then
    .next (s.report .empty)
  else
    match s.memRead s.readSlot with
    | .error f => .fault f
    | .ok v => .next (((s.setOut v).advanceTail).report .ok)

/-- PUT appends `v`; on a full buffer it reports FULL and changes nothing more (R102). The slot index is taken of the
wrapped counter, so the discontinuity of R87 and R168 is the block's own behaviour and is not repaired (D20). -/
def execPut (v : Element) (s : State) : Host.Outcome State Fault Refusal :=
  if s.isFull then
    .next (s.report .full)
  else
    match s.memWrite s.writeSlot v with
    | .error f => .fault f
    | .ok s' => .next (s'.advanceHead.report .ok)

end Sys2Proof.Machine
end

