-- ==== Sys2Proof/Machine/Dispatch.lean ====
section
/-! DEFINITION. exec: one operation performed, whole, on the state it finds (R9, R47, R71). -/

namespace Sys2Proof.Machine

def exec (i : Instr) (s : State) : Host.Outcome State Fault Refusal :=
  match i with
  | .init => Sys2Proof.Machine.execInit s
  | .getstatus => Sys2Proof.Machine.execGetstatus s
  | .isfull => Sys2Proof.Machine.execIsfull s
  | .isempty => Sys2Proof.Machine.execIsempty s
  | .peek => Sys2Proof.Machine.execPeek s
  | .get => Sys2Proof.Machine.execGet s
  | .put v => Sys2Proof.Machine.execPut v s
  | .count => Sys2Proof.Machine.execCount s
  | .refresh => Sys2Proof.Machine.execRefresh s

end Sys2Proof.Machine
end

