-- ==== Sys2Proof/Decode.lean ====
section
/-! DEFINITION. The one command format (R60): the decoder, total on every command word, which matches on the opcode
alone (R67) and rejects the reserved opcodes by name (R65), and the encoder. -/

namespace Sys2Proof

/-- `cmd[11:8]` (R60). -/
def opcodeField (c : Command) : Opcode := c.extractLsb' 8 4

/-- `cmd[7:0]`, taken bit for bit (R60, R62). -/
def dataField (c : Command) : Element := c.extractLsb' 0 8

/-- The operation a command word stands for (R61); the `data` field is read by PUT only (R62). -/
def decode (c : Command) : Except DecodeError Instr :=
  match (opcodeField c).toNat with
  | 0 => .ok .init
  | 1 => .ok .getstatus
  | 2 => .ok .isfull
  | 3 => .ok .isempty
  | 4 => .ok .peek
  | 5 => .ok .get
  | 6 => .ok (.put (dataField c))
  | 7 => .ok .count
  | 8 => .ok .refresh
  | _ => .error (.reservedOpcode (opcodeField c))

/-- The opcode of an operation: its place in the source's list of signatures, from 0 (R61). -/
def opcodeOf : Instr → Opcode
  | .init => 0x0#4
  | .getstatus => 0x1#4
  | .isfull => 0x2#4
  | .isempty => 0x3#4
  | .peek => 0x4#4
  | .get => 0x5#4
  | .put _ => 0x6#4
  | .count => 0x7#4
  | .refresh => 0x8#4

/-- The `data` field of an operation's canonical word: PUT's element, and zeros for the other eight (R62). -/
def dataOf : Instr → Element
  | .put v => v
  | .init => 0#8
  | .getstatus => 0#8
  | .isfull => 0#8
  | .isempty => 0#8
  | .peek => 0#8
  | .get => 0#8
  | .count => 0#8
  | .refresh => 0#8

/-- `cmd = {opcode, data}` (R60). -/
def encode (i : Instr) : Command := opcodeOf i ++ dataOf i

/-- The command word whose bits are the low `nbits` bits of `w`, bit 0 the least significant, and zeros above them.
There is none where a bit above `cmd[11]` is set: the port `cmd` has 12 bits (R60, R70). -/
def commandOfTable (nbits w : Nat) : Option Command :=
  if w % 2 ^ nbits < 2 ^ 12 then some (BitVec.ofNat 12 (w % 2 ^ nbits)) else none

/-- What the decoder reads from a word written as spec/opcode_table.json numbers its bits. -/
def decodeTableWord (nbits w : Nat) : Option Instr :=
  match commandOfTable nbits w with
  | none => none
  | some c => (decode c).toOption

end Sys2Proof
end

