-- ==== Sys2Proof/Machine/Ports.lean ====
section
/-! DEFINITION. The ports of the block (R70) and the environment that drives them: three agents, each with its own
operations in its own order, served in an order the schedule leaves open (R53, R150). -/

namespace Sys2Proof.Machine

/-- The operations an agent has still to issue. -/
def State.queue (s : State) : Agent → List Command
  | .producer => s.producerQ
  | .consumer => s.consumerQ
  | .supervisor => s.supervisorQ

/-- The state with one agent's operations replaced. -/
def State.setQueue (s : State) (a : Agent) (q : List Command) : State :=
  match a with
  | .producer => { s with producerQ := q }
  | .consumer => { s with consumerQ := q }
  | .supervisor => { s with supervisorQ := q }

/-- What the outside drives at this step's edge; with the schedule used up no reset and no command is presented, and the
run is over (R173). -/
def State.edge (s : State) : Edge :=
  match s.schedule with
  | [] => ⟨false, none⟩
  | e :: _ => e

/-- The input port `rst` (R70). -/
def State.rstPin (s : State) : Bool := s.edge.rst

/-- The input ports `cmd_valid` and `cmd`: the served agent's next command word, `none` being `cmd_valid = 0`, which is
also what an agent with nothing to issue presents (R70). -/
def State.cmdPin (s : State) : Option Command :=
  match s.edge.grant with
  | none => none
  | some a => (s.queue a).head?

/-- The state once this step's edge has been sampled: the edge is past, and the presented command has left its agent's
queue. A command presented in a reset step is not remembered (R161). -/
def State.sampled (s : State) : State :=
  match s.edge.grant with
  | none => { s with schedule := s.schedule.tail }
  | some a => ({ s with schedule := s.schedule.tail }).setQueue a (s.queue a).tail

/-- What the block does at an edge: one of the three things of R70, or the reserved opcode that a model refuses (R65). -/
inductive Action where
  | reset
  | idle
  | perform (i : Instr)
  | reserved (op : Opcode)
  deriving DecidableEq, Repr

/-- The priority of R70 and R161: reset, then a valid command, then nothing. -/
def State.action (s : State) : Action :=
  if s.rstPin then
    .reset
  else
    match s.cmdPin with
    | none => .idle
    | some c =>
      match decode c with
      | .ok i => .perform i
      | .error (.reservedOpcode op) => .reserved op

/-- The producer or the consumer presents a command at this edge: it issues an operation (R70, R150), be it one that a
reset in the same step ignores (R161). -/
def State.callerPresents (s : State) : Bool :=
  (s.edge.grant == some .producer || s.edge.grant == some .consumer) && s.cmdPin.isSome

/-- The block's step at this edge is one of the three for which R165 asks that the buffer be quiescent: a reset, an INIT
or a REFRESH. It is complete when the step is (R47). -/
def State.rewinds (s : State) : Bool :=
  s.action == .reset || s.action == .perform .init || s.action == .perform .refresh

/-- The number a result carries into the response word (R64). -/
def Result.value : Result → Nat
  | .nothing => 0
  | .status c => c.toNat
  | .flag b => b.toNat
  | .element e => e.toNat
  | .count n => n

/-- The output port `rsp_valid` in the step just taken (R64, R70). -/
def State.rspValid (s : State) : Bool := s.response.isSome

/-- The output port `rsp` in the step just taken: the result zero-extended to `RW` bits, and 0 where there is none
(R64). -/
def State.rsp (s : State) : BitVec s.cfg.responseWidth :=
  match s.response with
  | none => 0#_
  | some r => BitVec.ofNat _ r.value

/-- The output port `out_data`: the `out` register at all times (R25, R70). -/
def State.outData (s : State) : Element := s.out

/-- The command words one agent issues in a listing, in order (R68). -/
def issuedBy (a : Agent) : List Line → List Command
  | [] => []
  | .reset :: rest => issuedBy a rest
  | .op b i :: rest => if b = a then encode i :: issuedBy a rest else issuedBy a rest

/-- The edge of one line of a listing: `RESET` is a step with `rst = 1` (R68). -/
def Line.edge : Line → Edge
  | .reset => ⟨true, none⟩
  | .op a _ => ⟨false, some a⟩

/-- The machine with a listing as all that is still to come: each agent holds the operations it issues, and the schedule
serves the agents in the order of the lines (R53, R68). -/
def State.withListing (s : State) (lines : List Line) : State :=
  { s with
    producerQ := issuedBy .producer lines
    consumerQ := issuedBy .consumer lines
    supervisorQ := issuedBy .supervisor lines
    schedule := lines.map Line.edge }

/-- The machine with one more command word in front: agent `a` presents it at the very next edge. -/
def State.present (s : State) (a : Agent) (c : Command) : State :=
  ({ s with schedule := ⟨false, some a⟩ :: s.schedule }).setQueue a (c :: s.queue a)

end Sys2Proof.Machine
end

