-- ==== Sys2Proof/Machine/Step.lean ====
section
/-! DEFINITION. One step: one rising edge of `clk` (R70). -/

namespace Sys2Proof.Machine

/-- One step of the machine: the edge is sampled, and the block resets, performs the presented operation whole, or does
nothing (R70). A run with a reserved opcode is refused by name (R65, 93_implementation_defined.md U1). -/
def step (s : State) : Host.Outcome State Fault Refusal :=
  match s.action with
  | .reset => .next s.sampled.hardReset
  | .idle => .next s.sampled.quiet
  | .perform i => exec i s.sampled
  | .reserved op => .refused (.reservedOpcode op)

/-- The state with the command word `w` presented at the very next edge. The block fetches nothing (R28): a word is
issued by an agent, here the supervisor. Where `w` has a bit above `cmd[11]` there is no such command, and none is
presented. -/
def State.withFetchWord (s : State) (nbits w : Nat) : State :=
  match commandOfTable nbits w with
  | none => s
  | some c => s.present .supervisor c

end Sys2Proof.Machine
end

