-- ==== Sys2Proof/Safety.lean ====
section
/-! DEFINITION. The terms in which claims are stated: the values a register can hold, the states a run can reach (R29,
R33), the wrap hazard (R87), the abstract contents (R91), the ideal queue of the operations (R1, R104), the unbounded
counts (R34, R86), the discipline of the agents (R150), quiescence (R165), and sequences of operations (R47, R173). -/

namespace Sys2Proof.Machine

/-- The state is one the registers and the store can hold: `CW`-bit counters, and a canonical memory of `CAPACITY` slots.
This and nothing more is known of the state before the first reset or INIT (R31). -/
def State.inRange (s : State) : Bool :=
  decide (s.head < s.cfg.modulus) && decide (s.tail < s.cfg.modulus) && Memory.wf s.store
    && Memory.below s.cfg.capacity s.store

/-- The invariant of the reachable states: in range, `occ() <= CAPACITY` (R29), and `last_status` one of OK, EMPTY and
FULL (R33). -/
def State.inv (s : State) : Bool :=
  s.inRange && decide (s.occ ≤ s.cfg.capacity) &&
    (s.lastStatus == statusCode .ok || s.lastStatus == statusCode .empty || s.lastStatus == statusCode .full)

/-- The condition of R87: `R_WRAP != 0`, `0 < head < tail` and `occ() > R_WRAP`. -/
def State.hazard (s : State) : Bool :=
  decide (s.cfg.rWrap ≠ 0) && decide (0 < s.head) && decide (s.head < s.tail) && decide (s.cfg.rWrap < s.occ)

/-- `contents()`, the oldest first (R91). -/
def State.contents (s : State) : List Element :=
  (List.range s.occ).map fun k => Memory.read s.store (s.slotAt k)

/-- From `s` to `t` exactly one response was produced, `r`: it stands on the ports `rsp_valid` and `rsp`, zero-extended,
and at the end of the run's responses (R64, R173). -/
def State.answers (s t : State) (r : Result) : Prop :=
  t.response = some r ∧ t.responses = s.responses ++ [r] ∧ t.rspValid = true ∧ t.rsp.toNat = r.value

/-- From `s` to `t` no response was produced: `rsp_valid = 0` and `rsp = 0` (R64). -/
def State.staysSilent (s t : State) : Prop :=
  t.response = none ∧ t.responses = s.responses ∧ t.rspValid = false ∧ t.rsp.toNat = 0

/-- The configuration and the environment's operations are the same. -/
def State.sameSurroundings (s t : State) : Prop :=
  t.cfg = s.cfg ∧ t.producerQ = s.producerQ ∧ t.consumerQ = s.consumerQ ∧ t.supervisorQ = s.supervisorQ ∧
    t.schedule = s.schedule

/-- The five items of R20 are the same; of the store, every slot. -/
def State.sameBlock (s t : State) : Prop :=
  (∀ a, Memory.read t.store a = Memory.read s.store a) ∧ t.store = s.store ∧ t.head = s.head ∧ t.tail = s.tail ∧
    t.lastStatus = s.lastStatus ∧ t.out = s.out

/-- The operations performed one after another (R47), each from the state the one before it left. -/
def performAll : List Instr → State → Host.Outcome State Fault Refusal
  | [], s => .next s
  | i :: rest, s =>
    match exec i s with
    | .next t => performAll rest t
    | .fault f => .fault f
    | .refused r => .refused r

/-- The lines of a listing performed one after another: an operation, or a reset step (R68). -/
def performLines : List Line → State → Host.Outcome State Fault Refusal
  | [], s => .next s
  | .reset :: rest, s => performLines rest s.hardReset
  | .op _ i :: rest, s =>
    match exec i s with
    | .next t => performLines rest t
    | .fault f => .fault f
    | .refused r => .refused r

/-- The numbers of successful PUTs and GETs since the last reset, INIT or REFRESH (R86). -/
structure Tally where
  puts : Nat
  gets : Nat
  deriving DecidableEq, Repr

/-- The counts after an operation: a PUT or GET is successful when it answered OK. -/
def Tally.after (i : Instr) (answer : Option Result) (n : Tally) : Tally :=
  match i with
  | .put _ => if answer = some (.status (statusCode .ok)) then { n with puts := n.puts + 1 } else n
  | .get => if answer = some (.status (statusCode .ok)) then { n with gets := n.gets + 1 } else n
  | .init => ⟨0, 0⟩
  | .refresh => ⟨0, 0⟩
  | .count => n
  | .isfull => n
  | .isempty => n
  | .peek => n
  | .getstatus => n

/-- `head = P mod M` and `tail = G mod M`, with `0 <= P - G <= CAPACITY` (R86). -/
def State.countedBy (s : State) (n : Tally) : Prop :=
  s.head = n.puts % s.cfg.modulus ∧ s.tail = n.gets % s.cfg.modulus ∧
    n.gets ≤ n.puts ∧ n.puts - n.gets ≤ s.cfg.capacity

/-- An ideal first-in first-out queue with the reject-on-full policy, a status and an output. -/
structure Ideal where
  queue  : List Element
  status : StatusCode
  out    : Element
  deriving DecidableEq, Repr

/-- What the block is meant to be seen as: its contents, its status and its output (R91). -/
def State.ideal (s : State) : Ideal := ⟨s.contents, s.lastStatus, s.out⟩

/-- The nine operations on the ideal queue: what becomes of it, and what it answers. -/
def Ideal.perform (capacity : Nat) (i : Instr) (q : Ideal) : Ideal × Result :=
  match i with
  | .init => (⟨[], statusCode .ok, q.out⟩, .nothing)
  | .refresh => (⟨[], statusCode .ok, q.out⟩, .nothing)
  | .getstatus => (q, .status q.status)
  | .count => (q, .count q.queue.length)
  | .isempty => (q, .flag q.queue.isEmpty)
  | .isfull => (q, .flag (decide (q.queue.length = capacity)))
  | .peek => (q, .element (q.queue.headD 0#8))
  | .get =>
    match q.queue with
    | [] => ({ q with status := statusCode .empty }, .status (statusCode .empty))
    | e :: rest => (⟨rest, statusCode .ok, e⟩, .status (statusCode .ok))
  | .put v =>
    if q.queue.length = capacity then
      ({ q with status := statusCode .full }, .status (statusCode .full))
    else
      ({ q with queue := q.queue ++ [v], status := statusCode .ok }, .status (statusCode .ok))

/-- The operations on the ideal queue one after another, with all their answers in order. -/
def Ideal.performAll (capacity : Nat) : List Instr → Ideal → Ideal × List Result
  | [], q => (q, [])
  | i :: rest, q =>
    let (q', r) := Ideal.perform capacity i q
    let (q'', rs) := Ideal.performAll capacity rest q'
    (q'', r :: rs)

/-- `State.quiescent` as far as the next `n` edges show it. -/
def State.quiescentFor : Nat → State → Bool
  | 0, _ => true
  | n + 1, s => !s.callerPresents && (s.rewinds || State.quiescentFor n s.sampled)

/-- The buffer is quiescent, which INIT, REFRESH and reset ask of their caller (R165): neither the producer nor the
consumer issues an operation until the coming reset, INIT or REFRESH has completed; where none is coming, they issue none
at all. What they issue after it does not count. No operation is ever in progress between two steps (R47), and that both
callers have been told is no state of the block (notes/assumptions/16.md). The block does not check any of it: it is a
premise of claims (93_implementation_defined.md U5), and `step` runs every interleaving. -/
def State.quiescent (s : State) : Bool := State.quiescentFor s.schedule.length s

/-- The operations of an agent's role: PUT is the producer's, GET the consumer's, INIT and REFRESH the supervisor's, and
any role may issue the queries (R150). The block checks none of it (R149): it is a premise of claims. -/
def mayIssue (a : Agent) (i : Instr) : Bool :=
  i.isQuery ||
    match a with
    | .producer => (i matches .put _)
    | .consumer => i == .get
    | .supervisor => i == .init || i == .refresh

end Sys2Proof.Machine
end

