-- ==== Sys2Proof/WellFormed.lean ====
section
/-! DEFINITION. What may be built: a pair of numbers that is a configuration (R5, R7), an operand that fits the `data`
field (R62, R68), and the well-formed instructions. -/

namespace Sys2Proof

/-- `1 <= CAPACITY <= 2^CW - 1`. It refuses `CAPACITY = 0`, `CW = 0` and `CAPACITY = 2^CW` (R7, R169,
93_implementation_defined.md U6). -/
def legalConfig (counterWidth capacity : Nat) : Bool :=
  decide (1 ≤ capacity) && decide (capacity ≤ 2 ^ counterWidth - 1)

/-- The configuration of two numbers, where they are one (R7, U6). -/
def Config.ofNats (counterWidth capacity : Nat) : Option Config :=
  if h : 1 ≤ capacity ∧ capacity ≤ 2 ^ counterWidth - 1 then
    some ⟨counterWidth, capacity, h.1, h.2⟩
  else
    none

/-- The operand of PUT in a listing is an unsigned number in `0 .. 2^DW - 1` (R68). -/
def legalOperand (n : Nat) : Bool := decide (n < 2 ^ 8)

/-- `PUT n` as a listing writes it: no operation where the number does not fit the `data` field (R62, R68). -/
def Instr.putOfNat (n : Nat) : Option Instr :=
  if legalOperand n then some (.put (BitVec.ofNat 8 n)) else none

/-- The well-formedness of an instruction. PUT's operand is an element by its type, and the other eight operations have
no operand (R62), so every term is well formed; the checks that can refuse stand above. -/
def Instr.wf : Instr → Bool
  | .init => true
  | .getstatus => true
  | .isfull => true
  | .isempty => true
  | .peek => true
  | .get => true
  | .put v => legalOperand v.toNat
  | .count => true
  | .refresh => true

end Sys2Proof
end

