-- ==== Sys2Proof/Certificates/Slice0/Obligations.lean ====
section
/-! DEFINITION. The statements for the provers, from the numbered rules of the spec. A statement about a state holds for
every state of the type, or names the premise it needs: `inRange` (the registers and the store can hold the value) or
`inv` (the invariant of the reachable states), which are statements of their own. The configuration is a field of the
state that no step writes, so every statement holds for every legal `CAPACITY` and `CW`. Where a docstring says 'the spec
infers', the rule it names is marked 'derived' in the spec: the statement's basis is 'derived' too. -/

open Sys2Proof Sys2Proof.Machine Host

/-! ## Encoding -/

/-- R61, R65 and spec/30_encoding.md section 8: the words of the spec's own table of encodings. -/
def Obligations.SpecWordsDecode : Prop :=
  decode 0x000#12 = .ok .init ∧ decode 0x100#12 = .ok .getstatus ∧ decode 0x200#12 = .ok .isfull ∧
  decode 0x300#12 = .ok .isempty ∧ decode 0x400#12 = .ok .peek ∧ decode 0x500#12 = .ok .get ∧
  decode 0x60A#12 = .ok (.put 10#8) ∧ decode 0x6FF#12 = .ok (.put 255#8) ∧ decode 0x700#12 = .ok .count ∧
  decode 0x800#12 = .ok .refresh ∧ decode 0x5A5#12 = .ok .get ∧
  decode 0x900#12 = .error (.reservedOpcode 9#4)

/-- R60, R61, R62: the decoder gives back every well-formed operation from its canonical word. -/
def Obligations.DecodeOfEncode : Prop :=
  ∀ i : Instr, i.wf = true → decode (encode i) = .ok i

/-- R67: the decoder matches on the opcode alone; PUT's operand is the `data` field, bit for bit. -/
def Obligations.DataBitsIgnoredButByPut : Prop :=
  (∀ (op : Opcode) (d d' : Element), op ≠ 6#4 → decode (op ++ d) = decode (op ++ d')) ∧
  (∀ d : Element, decode (6#4 ++ d) = .ok (.put d)) ∧
  (∀ (op : Opcode) (d d' : Element) (i : Instr), op ≠ 6#4 → decode (op ++ d) = .ok i →
    ∀ (s : State) (a : Agent), step (s.present a (op ++ d')) = step (s.present a (op ++ d)))

/-- R60, R61, R62, R65: a decoded operation has the word's opcode, a PUT has the whole word, and exactly the opcodes
`4'h9` to `4'hF` are reserved. -/
def Obligations.DecodedWordHasItsOpcode : Prop :=
  (∀ (c : Command) (i : Instr), decode c = .ok i →
    opcodeOf i = c.extractLsb' 8 4 ∧ ∀ v, i = .put v → encode i = c) ∧
  (∀ c : Command, (∃ op, decode c = .error (.reservedOpcode op)) ↔ 9 ≤ c.toNat / 256) ∧
  (∀ (c : Command) (op : Opcode), decode c = .error (.reservedOpcode op) → op.toNat = c.toNat / 256)

/-- R63: the six declared codes have the values 0 to 5 in the source's order, and 6 and 7 have no name. -/
def Obligations.StatusCodesHaveTheirValues : Prop :=
  (∀ (st : Status) (c : StatusCode), statusOfCode c = some st ↔ c = statusCode st) ∧
  [Status.ok, .empty, .full, .nullHandler, .nullBuffer, .illegalSize].map (fun st => (statusCode st).toNat)
    = [0, 1, 2, 3, 4, 5] ∧
  statusOfCode 6#3 = none ∧ statusOfCode 7#3 = none

/-! ## Configuration, counters, occupancy -/

/-- The spec infers (R8, marked derived from R5 and R7): the derived constants, `WrapSafe` in its three forms, and the figures for `CAPACITY = 200`. -/
def Obligations.WrapSafeIsPowerOfTwo : Prop :=
  (∀ c : Config, c.modulus = 2 ^ c.counterWidth ∧ c.rWrap = 2 ^ c.counterWidth % c.capacity ∧
    (c.WrapSafe ↔ c.rWrap = 0) ∧ (c.WrapSafe ↔ c.capacity ∣ 2 ^ c.counterWidth) ∧
    (c.WrapSafe ↔ ∃ k, c.capacity = 2 ^ k ∧ c.capacity ≤ 2 ^ (c.counterWidth - 1))) ∧
  (∀ c : Config, c.capacity = 200 → ¬ c.WrapSafe ∧
    (c.counterWidth = 8 → c.rWrap = 56) ∧ (c.counterWidth = 16 → c.rWrap = 136) ∧
    (c.counterWidth = 32 → c.rWrap = 96) ∧ (c.counterWidth = 64 → c.rWrap = 16)) ∧
  (∃ c : Config, ¬ c.WrapSafe)

/-- R7, R169: a pair of numbers is a configuration exactly when `1 <= CAPACITY <= 2^CW - 1`. -/
def Obligations.OnlyLegalPairsAreConfigurations : Prop :=
  ∀ cw cap : Nat,
    (legalConfig cw cap = true ↔ ∃ c : Config, c.counterWidth = cw ∧ c.capacity = cap) ∧
    (legalConfig cw cap = true ↔ 1 ≤ cap ∧ cap < 2 ^ cw) ∧
    ((Config.ofNats cw cap).isSome = legalConfig cw cap) ∧
    (legalConfig cw cap = true → 1 ≤ cw)

/-- R80: a counter advances by one modulo `M`, `inc(M - 1) = 0`, and nothing else ever advances one: after any
operation `head` is what it was, or one more modulo `M` after a PUT that answers OK, or 0 after INIT or REFRESH;
likewise `tail`, with GET. The wrap is silent: a PUT or GET that advances its counter leaves the status OK, the other
counter and the surroundings as ever. -/
def Obligations.CountersAdvanceByOneOnly : Prop :=
  (∀ (c : Config) (n : Nat), n < c.modulus →
    Counter.inc c n < c.modulus ∧ (n ≠ c.modulus - 1 → Counter.inc c n = n + 1) ∧
      (n = c.modulus - 1 → Counter.inc c n = 0)) ∧
  ∀ (i : Instr) (s t : State), exec i s = .next t →
    (t.head = if i = .init ∨ i = .refresh then 0
      else if i ∈ Set.range Instr.put ∧ t.response = some (.status (statusCode .ok)) then Counter.inc s.cfg s.head
      else s.head) ∧
    (t.tail = if i = .init ∨ i = .refresh then 0
      else if i = .get ∧ t.response = some (.status (statusCode .ok)) then Counter.inc s.cfg s.tail
      else s.tail) ∧
    (t.head ≠ s.head ∨ t.tail ≠ s.tail → t.lastStatus = statusCode .ok) ∧ s.sameSurroundings t

/-- R81: `idx(c) = c mod CAPACITY` lies in the store; successive counter values select successive slots; at the counter
wrap they do so only when `R_WRAP = 0`. -/
def Obligations.SlotsSucceedUpToTheCounterWrap : Prop :=
  ∀ c : Config,
    (∀ n, Counter.idx c n = n % c.capacity ∧ Counter.idx c n ≤ c.capacity - 1) ∧
    (∀ n, n < c.modulus - 1 → Counter.idx c (n + 1) = (Counter.idx c n + 1) % c.capacity) ∧
    (∀ n, Counter.idx c n = c.capacity - 1 → n < c.modulus - 1 → Counter.idx c (n + 1) = 0) ∧
    (∀ s : State, s.cfg = c → s.writeSlot = s.head % c.capacity ∧ s.readSlot = s.tail % c.capacity) ∧
    Counter.idx c 0 = 0 ∧
    ((Counter.idx c (c.modulus - 1) : Int) = ((c.rWrap : Int) - 1) % (c.capacity : Int)) ∧
    (Counter.idx c (Counter.inc c (c.modulus - 1)) = (Counter.idx c (c.modulus - 1) + 1) % c.capacity ↔ c.rWrap = 0)

/-- R82: the occupancy is the wrapping difference: the plain difference where `head >= tail`, and `M` more where not;
where the counters count the successful PUTs and GETs, it is the number of stored, unread elements. -/
def Obligations.OccupancyIsTheWrappingDifference : Prop :=
  ∀ s : State, s.head < s.cfg.modulus → s.tail < s.cfg.modulus →
    s.occ < s.cfg.modulus ∧
    (s.tail ≤ s.head → s.occ = s.head - s.tail) ∧
    (s.head < s.tail → s.occ = s.head + s.cfg.modulus - s.tail) ∧
    (∀ n : Tally, s.countedBy n → s.occ = n.puts - n.gets)

/-- R83, R84: empty is equality of the counters, full is equality of the occupancy with `CAPACITY`, never both, and a
full buffer exists in every configuration. -/
def Obligations.EmptyAndFullAreDistinct : Prop :=
  (∀ s : State, s.head < s.cfg.modulus → s.tail < s.cfg.modulus →
    (s.isEmpty = true ↔ s.occ = 0) ∧ (s.isEmpty = true ↔ s.head = s.tail) ∧
    (s.isFull = true ↔ s.occ = s.cfg.capacity) ∧ (s.cfg.capacity < s.occ → s.isFull = false) ∧
    ¬ (s.isEmpty = true ∧ s.isFull = true)) ∧
  (∀ c : Config, ∃ s : State, s.cfg = c ∧ s.inRange = true ∧ s.occ = c.capacity ∧ s.isFull = true)

/-! ## The occupancy queries -/

/-- R88: COUNT answers `occ()` and changes nothing. -/
def Obligations.CountAnswersOccupancy : Prop :=
  (∀ d : Element, decode (7#4 ++ d) = .ok .count) ∧
  ∀ s : State, s.inRange = true → ∃ t, exec .count s = .next t ∧ s.sameBlock t ∧ s.sameSurroundings t ∧
    s.answers t (.count (if s.tail ≤ s.head then s.head - s.tail else s.head + s.cfg.modulus - s.tail)) ∧
    (s.isFull = true → t.response = some (.count s.cfg.capacity)) ∧
    (s.inv = true → t.rsp.toNat ≤ s.cfg.capacity) ∧
    (∃ u, exec .count t = .next u ∧ u.response = t.response) ∧
    (∀ i, i = .init ∨ i = .refresh →
      ∃ u w, exec i s = .next u ∧ exec .count u = .next w ∧ w.response = some (.count 0)) ∧
    (∃ w, exec .count s.hardReset = .next w ∧ w.response = some (.count 0))

/-- R89: ISFULL answers whether `occ()` is `CAPACITY`, which is whether a PUT would return FULL, and changes nothing. -/
def Obligations.IsfullAnswersWhetherPutIsRejected : Prop :=
  (∀ d : Element, decode (2#4 ++ d) = .ok .isfull) ∧
  ∀ s : State, ∃ t, exec .isfull s = .next t ∧ s.sameBlock t ∧ s.sameSurroundings t ∧
    s.answers t (.flag (decide (s.occ = s.cfg.capacity))) ∧
    (t.rsp.toNat = if s.occ = s.cfg.capacity then 1 else 0) ∧
    (s.head = s.tail → t.rsp.toNat = 0) ∧ (s.cfg.capacity < s.occ → t.rsp.toNat = 0) ∧
    (∀ v, t.rsp.toNat = 1 ↔ ∃ u, exec (.put v) s = .next u ∧ u.response = some (.status (statusCode .full))) ∧
    (s.inRange = true → s.cfg.capacity = 1 → s.head = s.tail → ∀ v, ∃ u w, exec (.put v) s = .next u ∧
      u.response = some (.status (statusCode .ok)) ∧ exec .isfull u = .next w ∧ w.response = some (.flag true))

/-- R90: ISEMPTY answers whether `head == tail`, which is whether a GET would return EMPTY, and changes nothing. -/
def Obligations.IsemptyAnswersWhetherGetFails : Prop :=
  (∀ d : Element, decode (3#4 ++ d) = .ok .isempty) ∧
  ∀ s : State, s.inRange = true → ∃ t, exec .isempty s = .next t ∧ s.sameBlock t ∧ s.sameSurroundings t ∧
    s.answers t (.flag (decide (s.head = s.tail))) ∧
    (t.rsp.toNat = if s.occ = 0 then 1 else 0) ∧
    (t.rsp.toNat = 1 ↔ ∃ u, exec .get s = .next u ∧ u.response = some (.status (statusCode .empty))) ∧
    (t.rsp.toNat = 1 → ∃ u, exec .peek s = .next u ∧ u.response = some (.element 0#8))

/-! ## Data transfer -/

/-- R100: PEEK answers the oldest element, or 0 on an empty buffer whatever the store holds, and changes nothing; a GET
after it gives the same element. -/
def Obligations.PeekAnswersOldestElement : Prop :=
  (∀ d : Element, decode (4#4 ++ d) = .ok .peek) ∧
  ∀ s : State, s.inRange = true → ∃ t, exec .peek s = .next t ∧ s.sameBlock t ∧ s.sameSurroundings t ∧
    s.answers t (.element (if s.head = s.tail then 0#8 else Memory.read s.store (s.tail % s.cfg.capacity))) ∧
    (∃ u, exec .peek t = .next u ∧ u.response = t.response) ∧
    (s.head ≠ s.tail → ∃ u, exec .get t = .next u ∧ t.response = some (.element u.out))

/-- R101: GET moves the oldest element to `out`, advances `tail` and answers OK; on an empty buffer it answers EMPTY and
writes `last_status` alone. The store and `head` are never written. -/
def Obligations.GetRemovesOldestElement : Prop :=
  (∀ d : Element, decode (5#4 ++ d) = .ok .get) ∧
  (∀ s : State, s.inRange = true → s.head ≠ s.tail → ∃ t, exec .get s = .next t ∧ s.sameSurroundings t ∧
    t.out = Memory.read s.store (s.tail % s.cfg.capacity) ∧ t.tail = (s.tail + 1) % 2 ^ s.cfg.counterWidth ∧
    t.lastStatus = statusCode .ok ∧ s.answers t (.status 0#3) ∧ t.head = s.head ∧ t.store = s.store ∧
    (∀ a, Memory.read t.store a = Memory.read s.store a) ∧ t.occ + 1 = s.occ ∧
    (s.isFull = true → t.isFull = false ∧
      ∀ v, ∃ u, exec (.put v) t = .next u ∧ u.response = some (.status (statusCode .ok)))) ∧
  (∀ s : State, s.inRange = true → s.head = s.tail → ∃ t, exec .get s = .next t ∧ s.sameSurroundings t ∧
    t.lastStatus = statusCode .empty ∧ s.answers t (.status 1#3) ∧ t.out = s.out ∧ t.tail = s.tail ∧
    t.head = s.head ∧ t.store = s.store ∧ (∀ a, Memory.read t.store a = Memory.read s.store a))

/-- R102: PUT writes the element to slot `head mod CAPACITY` and no other, advances `head` and answers OK; on a full
buffer it answers FULL and writes `last_status` alone. `tail` and `out` are never written. The slot held no outstanding
element unless the condition of R87 holds after the PUT, and held one when the PUT makes it hold. -/
def Obligations.PutAppendsUnlessFull : Prop :=
  (∀ v : Element, decode (6#4 ++ v) = .ok (.put v)) ∧
  (∀ (v : Element) (s : State), s.inRange = true → s.occ ≠ s.cfg.capacity →
    ∃ t, exec (.put v) s = .next t ∧ s.sameSurroundings t ∧
      Memory.read t.store (s.head % s.cfg.capacity) = v ∧
      (∀ a, a ≠ s.head % s.cfg.capacity → Memory.read t.store a = Memory.read s.store a) ∧
      t.head = (s.head + 1) % 2 ^ s.cfg.counterWidth ∧ t.lastStatus = statusCode .ok ∧ s.answers t (.status 0#3) ∧
      t.tail = s.tail ∧ t.out = s.out ∧ (s.occ ≤ s.cfg.capacity → t.occ = s.occ + 1) ∧
      (s.cfg.capacity = 1 → s.head = s.tail → t.isFull = true) ∧
      (s.occ ≤ s.cfg.capacity → t.hazard = false → ∀ k, k < s.occ → s.slotAt k ≠ s.head % s.cfg.capacity) ∧
      (s.occ ≤ s.cfg.capacity → s.hazard = false → t.hazard = true →
        ∃ k, k < s.occ ∧ s.slotAt k = s.head % s.cfg.capacity)) ∧
  (∀ (v : Element) (s : State), s.occ = s.cfg.capacity → ∃ t, exec (.put v) s = .next t ∧ s.sameSurroundings t ∧
      t.lastStatus = statusCode .full ∧ s.answers t (.status 2#3) ∧ t.head = s.head ∧ t.tail = s.tail ∧
      t.out = s.out ∧ t.store = s.store ∧ (∀ a, Memory.read t.store a = Memory.read s.store a))

/-- The spec infers (R103, marked derived from R102): on a full buffer any number of PUTs all return FULL and leave the count and the contents as they were. -/
def Obligations.FullBufferRejectsEveryPut : Prop :=
  ∀ (vs : List Element) (s : State), s.occ = s.cfg.capacity →
    ∃ t, performAll (vs.map .put) s = .next t ∧
      t.responses = s.responses ++ List.replicate vs.length (.status (statusCode .full)) ∧
      t.occ = s.occ ∧ t.contents = s.contents ∧ t.head = s.head ∧ t.tail = s.tail ∧ t.store = s.store ∧
      t.out = s.out ∧ (vs ≠ [] → t.lastStatus = statusCode .full) ∧ s.sameSurroundings t

/-- The spec infers (R91 and R105, marked derived): the GETs that follow one another return the contents in order, oldest first, and once the buffer is
drained every further GET returns EMPTY and leaves `out` and the counters alone. -/
def Obligations.GetsDrainTheContentsInOrder : Prop :=
  ∀ s : State, s.inRange = true →
    s.contents.length = s.occ ∧
    (∀ k, (h : k < s.contents.length) → ∃ t, performAll (List.replicate (k + 1) .get) s = .next t ∧
      t.out = s.contents[k] ∧ t.response = some (.status (statusCode .ok)) ∧ t.head = s.head) ∧
    (∀ n, ∃ t u, performAll (List.replicate s.occ .get) s = .next t ∧
      performAll (List.replicate (n + 1) .get) t = .next u ∧ u.response = some (.status (statusCode .empty)) ∧
      u.out = t.out ∧ u.head = t.head ∧ u.tail = t.tail ∧ t.tail = s.head)

/-- The spec infers (R106, marked derived): put and get pairs from an empty buffer return each element bit for bit, in every configuration,
however often the counters wrap. -/
def Obligations.PutGetPairsReturnTheElement : Prop :=
  ∀ (vs : List Element) (v : Element) (s : State), s.inRange = true → s.head = s.tail →
    ∃ t, performAll ((vs ++ [v]).flatMap fun x => [.put x, .get]) s = .next t ∧ t.out = v ∧
      t.responses = s.responses ++ List.replicate (2 * (vs.length + 1)) (.status (statusCode .ok)) ∧
      t.head = t.tail ∧ t.head = (s.head + vs.length + 1) % s.cfg.modulus

/-- The spec infers (R104, marked derived): `N <= CAPACITY` PUTs into an empty buffer all return OK, and `N` GETs then return the elements in order, where
`WrapSafe` holds, or the PUTs stay below the counter wrap, or `N <= R_WRAP`. -/
def Obligations.PutsThenGetsKeepFifoOrder : Prop :=
  ∀ (vs : List Element) (s : State), s.inRange = true → s.head = s.tail → vs.length ≤ s.cfg.capacity →
    (s.cfg.WrapSafe ∨ s.head + vs.length ≤ s.cfg.modulus ∨ vs.length ≤ s.cfg.rWrap) →
    (∃ t, performAll (vs.map .put) s = .next t ∧
      t.responses = s.responses ++ List.replicate vs.length (.status (statusCode .ok))) ∧
    ∀ k, (h : k < vs.length) → ∃ t, performAll (vs.map .put ++ List.replicate (k + 1) .get) s = .next t ∧
      t.out = vs[k] ∧ t.response = some (.status (statusCode .ok))

/-! ## Control and status -/

/-- R120, R30, R31: INIT from any state at all clears the counters and every slot, sets OK, leaves `out`, and gives a
state of the invariant; INIT twice is INIT once, and a hardware reset gives the same block. -/
def Obligations.InitClearsTheBlock : Prop :=
  (∀ d : Element, decode (0#4 ++ d) = .ok .init) ∧
  ∀ s : State, ∃ t, exec .init s = .next t ∧ s.sameSurroundings t ∧ s.answers t .nothing ∧ t.rsp.toNat = 0 ∧
    t.head = 0 ∧ t.tail = 0 ∧ (∀ a, Memory.read t.store a = 0#8) ∧ t.lastStatus = statusCode .ok ∧ t.out = s.out ∧
    t.occ = 0 ∧ t.isEmpty = true ∧ t.isFull = false ∧ t.inv = true ∧
    (∃ u, exec .init t = .next u ∧ t.sameBlock u) ∧ t.sameBlock s.hardReset

/-- R121: REFRESH from any state clears both counters and sets OK, and leaves the store and `out`. -/
def Obligations.RefreshKeepsTheStore : Prop :=
  (∀ d : Element, decode (8#4 ++ d) = .ok .refresh) ∧
  ∀ s : State, ∃ t, exec .refresh s = .next t ∧ s.sameSurroundings t ∧ s.answers t .nothing ∧ t.rsp.toNat = 0 ∧
    t.head = 0 ∧ t.tail = 0 ∧ t.lastStatus = statusCode .ok ∧ t.out = s.out ∧ t.store = s.store ∧
    (∀ a, Memory.read t.store a = Memory.read s.store a) ∧ t.occ = 0 ∧ t.isEmpty = true ∧ t.isFull = false ∧
    (∃ u, exec .count t = .next u ∧ u.response = some (.count 0)) ∧
    (∃ u, exec .isempty t = .next u ∧ u.response = some (.flag true))

/-- R122: GETSTATUS answers `last_status` and leaves it; no query in between disturbs it. -/
def Obligations.GetstatusIsSticky : Prop :=
  (∀ d : Element, decode (1#4 ++ d) = .ok .getstatus) ∧
  ∀ s : State, ∃ t, exec .getstatus s = .next t ∧ s.sameBlock t ∧ s.sameSurroundings t ∧
    s.answers t (.status s.lastStatus) ∧
    ∀ qs : List Instr, (∀ q ∈ qs, q.isQuery = true) →
      ∃ u v, performAll qs t = .next u ∧ exec .getstatus u = .next v ∧ v.response = t.response

/-- R123: the next value of `last_status` depends on the operation and its outcome alone, never on its own value. -/
def Obligations.StatusFollowsTheOutcome : Prop :=
  ∀ (i : Instr) (s t : State), exec i s = .next t →
    t.lastStatus = match i with
      | .init => statusCode .ok
      | .refresh => statusCode .ok
      | .get => if s.occ ≠ 0 then statusCode .ok else statusCode .empty
      | .put _ => if s.occ ≠ s.cfg.capacity then statusCode .ok else statusCode .full
      | .count => s.lastStatus
      | .isfull => s.lastStatus
      | .isempty => s.lastStatus
      | .peek => s.lastStatus
      | .getstatus => s.lastStatus

/-- The spec infers (R171, marked derived): after INIT or after REFRESH, no sequence of operations can tell which it was: the answers, the counters, the
status and `out` are the same, although the stores may differ. -/
def Obligations.RefreshAndInitCannotBeToldApart : Prop :=
  ∀ s : State, s.inRange = true → ∃ a b, exec .init s = .next a ∧ exec .refresh s = .next b ∧
    ∀ ops : List Instr, ∃ t u, performAll ops a = .next t ∧ performAll ops b = .next u ∧
      t.responses = u.responses ∧ t.head = u.head ∧ t.tail = u.tail ∧ t.lastStatus = u.lastStatus ∧ t.out = u.out

/-- The spec infers (R167, marked derived): `last_status` has two writers, and GETSTATUS shows the latest outcome,
whoever's it was; the answer of a PUT or GET is its own. After a rejected PUT and a GET it shows OK, and after a failed
GET and a PUT it shows OK. -/
def Obligations.SharedStatusShowsTheLatestOutcome : Prop :=
  (∀ (v : Element) (s : State), s.occ = s.cfg.capacity → ∃ t, performAll [.put v, .get, .getstatus] s = .next t ∧
    t.responses = s.responses ++
      [.status (statusCode .full), .status (statusCode .ok), .status (statusCode .ok)]) ∧
  (∀ (v : Element) (s : State), s.occ = 0 → ∃ t, performAll [.get, .put v, .getstatus] s = .next t ∧
    t.responses = s.responses ++
      [.status (statusCode .empty), .status (statusCode .ok), .status (statusCode .ok)])

/-! ## Every operation -/

/-- R140, R71, R64: every operation on every state completes, and produces exactly one response, which the `rsp` port
carries without loss. -/
def Obligations.EveryOperationCompletes : Prop :=
  ∀ (i : Instr) (s : State), ∃ t r, exec i s = .next t ∧ s.answers t r ∧ r.value < 2 ^ s.cfg.responseWidth

/-- The spec infers (R32, marked derived): each operation changes only the state named for it. -/
def Obligations.EachOperationChangesOnlyItsState : Prop :=
  ∀ (i : Instr) (s t : State), exec i s = .next t → s.sameSurroundings t ∧
    (i.isQuery = true → s.sameBlock t) ∧
    (i = .refresh → t.store = s.store ∧ t.out = s.out) ∧
    (i = .init → t.out = s.out) ∧
    (i = .get → t.store = s.store ∧ t.head = s.head ∧ (s.occ = 0 → t.out = s.out ∧ t.tail = s.tail)) ∧
    (i ∈ Set.range Instr.put → t.tail = s.tail ∧ t.out = s.out ∧
      (s.occ = s.cfg.capacity → t.store = s.store ∧ t.head = s.head) ∧
      (s.inRange = true → ∀ a, a ≠ s.head % s.cfg.capacity → Memory.read t.store a = Memory.read s.store a))

/-- R146: a GET or PUT that fails changes `last_status` and nothing else, and answers the code it writes. -/
def Obligations.FailureWritesOnlyTheStatus : Prop :=
  ∀ (i : Instr) (s t : State), exec i s = .next t →
    (i = .get ∧ t.response ≠ some (.status (statusCode .ok)) ∨
      i ∈ Set.range Instr.put ∧ t.response ≠ some (.status (statusCode .ok))) →
    t = { s with lastStatus := t.lastStatus, response := some (.status t.lastStatus),
                 responses := s.responses ++ [.status t.lastStatus] } ∧
    t.lastStatus = (if i = .get then statusCode .empty else statusCode .full)

/-- R45: any number of queries leaves the state, and every query answers after them what it answered before. GET is not
idempotent: it removes what it returns. -/
def Obligations.QueriesAreIdempotent : Prop :=
  (∀ (qs : List Instr) (s : State), (∀ q ∈ qs, q.isQuery = true) →
    ∃ t, performAll qs s = .next t ∧ s.sameBlock t ∧ s.sameSurroundings t ∧
      ∀ q : Instr, q.isQuery = true →
        ∃ u v, exec q s = .next u ∧ exec q t = .next v ∧ u.response = v.response) ∧
  ∀ s : State, s.inRange = true → s.head ≠ s.tail → ∃ t, exec .get s = .next t ∧ t.tail ≠ s.tail ∧ t.occ < s.occ

/-! ## The step -/

/-- R71, R70: with `rst = 0`, when the served agent's next command word decodes, the step is that operation, performed on
the state in which the edge is past and the command has left its agent's queue, and the block is untouched. -/
def Obligations.StepPerformsThePresentedCommand : Prop :=
  ∀ (s : State) (a : Agent) (c : Command) (rest : List Command) (i : Instr),
    s.rstPin = false → s.edge.grant = some a → s.queue a = c :: rest → decode c = .ok i →
    step s = exec i s.sampled ∧ s.sameBlock s.sampled ∧ s.sampled.cfg = s.cfg ∧
      s.sampled.responses = s.responses ∧ s.sampled.schedule = s.schedule.tail ∧
      ∀ b, s.sampled.queue b = if b = a then rest else s.queue b

/-- R149: the block cannot tell its callers apart: a command word presented by one agent has the effect it has when
another presents it. -/
def Obligations.CallersCannotBeToldApart : Prop :=
  ∀ (s : State) (a b : Agent) (c : Command), step (s.present a c) = step (s.present b c) ∧
    ∀ i, decode c = .ok i → step (s.present a c) = exec i s

/-- R160, R161: a step with `rst = 1` performs the state change of INIT, whatever command is presented, answers nothing,
does not write `out`, and forgets the command. That the presented word leaves its agent's queue is the model's reading
of 'none is remembered' (DEDUCED, notes/assumptions/10.md), and that the run's list of responses stays is its choice
(DESIGN CHOICE, notes/assumptions/9.md). -/
def Obligations.ResetHasPriorityAndClears : Prop :=
  ∀ s : State, s.rstPin = true → ∃ t, step s = .next t ∧ s.staysSilent t ∧ t.cfg = s.cfg ∧
    t.head = 0 ∧ t.tail = 0 ∧ (∀ a, Memory.read t.store a = 0#8) ∧ t.lastStatus = statusCode .ok ∧ t.out = s.out ∧
    t.inv = true ∧ (∃ u, exec .init s = .next u ∧ u.sameBlock t) ∧
    t.schedule = s.schedule.tail ∧
    ∀ a, t.queue a = if s.edge.grant = some a then (s.queue a).tail else s.queue a

/-- R163: a step without reset and without a valid command changes no state and answers nothing, and any number of them
may follow one another. -/
def Obligations.IdleStepsChangeNothing : Prop :=
  (∀ s : State, s.rstPin = false → s.cmdPin = none → ∃ t, step s = .next t ∧ s.staysSilent t ∧ s.sameBlock t ∧
    t.cfg = s.cfg ∧ (∀ a, t.queue a = s.queue a) ∧ t.schedule = s.schedule.tail) ∧
  ∀ (n : Nat) (s : State) (rest : List Edge), s.schedule = List.replicate (n + 1) ⟨false, none⟩ ++ rest →
    ∃ t, core.run (n + 1) s = .next t ∧ s.staysSilent t ∧ s.sameBlock t ∧ t.cfg = s.cfg ∧
      (∀ a, t.queue a = s.queue a) ∧ t.schedule = rest

/-- R65, R43, R140: a step never faults, and is refused only for a presented reserved opcode with `rst = 0`, which is
always refused by its name (93_implementation_defined.md U1). -/
def Obligations.OnlyReservedOpcodesStopARun : Prop :=
  (∀ (s : State) (f : Fault), step s ≠ .fault f) ∧
  ∀ (s : State) (r : Refusal), step s = .refused r ↔
    s.rstPin = false ∧ ∃ c op, s.cmdPin = some c ∧ 9 ≤ c.toNat / 256 ∧ op.toNat = c.toNat / 256 ∧
      r = .reservedOpcode op

/-! ## The agents -/

/-- R53: a step takes at most the first of an agent's operations and only from the agent it serves, so each agent's
operations are taken in the order it issued them. An operation taken with `rst = 0` is performed; that one taken in a
reset step leaves the queue unperformed is the model's reading of R161 (DEDUCED, notes/assumptions/10.md). -/
def Obligations.EachAgentKeepsItsOrder : Prop :=
  ∀ (s t : State) (a : Agent), step s = .next t →
    s.queue a = (if s.edge.grant = some a then (s.queue a).head?.toList else []) ++ t.queue a

/-- R53, R47: every order of the agents' operations is a run: a machine that holds the operations of a listing performs
its lines in their order, one step each, with any reset steps between them. The queues and the schedule that hold the
order are the model's choice (DESIGN CHOICE, notes/assumptions/7.md), and so is that each line names its agent
(DESIGN CHOICE, notes/assumptions/14.md). -/
def Obligations.EveryInterleavingIsARun : Prop :=
  ∀ (lines : List Line) (s : State), s.producerQ = [] → s.consumerQ = [] → s.supervisorQ = [] → s.schedule = [] →
    core.run lines.length (s.withListing lines) = performLines lines s

/-- The spec infers (R152, marked derived): once the producer has seen the buffer not full, nothing the consumer may do makes its next PUT fail; once the
consumer has seen it not empty, nothing the producer may do makes its next GET fail; and the count moves one way. -/
def Obligations.CheckThenActIsSafeForOneProducerOneConsumer : Prop :=
  (∀ (ops : List Instr) (s : State), s.inv = true → (∀ i ∈ ops, mayIssue .consumer i = true) →
    ∃ t, performAll ops s = .next t ∧ t.occ ≤ s.occ ∧
      (s.isFull = false → ∀ v, ∃ u, exec (.put v) t = .next u ∧ u.response = some (.status (statusCode .ok)))) ∧
  (∀ (ops : List Instr) (s : State), s.inv = true → (∀ i ∈ ops, mayIssue .producer i = true) →
    ∃ t, performAll ops s = .next t ∧ s.occ ≤ t.occ ∧
      (s.isEmpty = false → ∃ u, exec .get t = .next u ∧ u.response = some (.status (statusCode .ok))))

/-- R165, R150: the buffer is quiescent where neither caller has an operation to issue, and where the supervisor's INIT or
REFRESH is served next, whatever the callers issue after it. While it is quiescent only the supervisor's operations are
performed, both callers keep what they have to issue, and it stays so up to the reset, INIT or REFRESH, which finds no
operation of theirs beside it and sets the counters to 0. What is read as 'both have been told of it' is
notes/assumptions/16.md. -/
def Obligations.QuiescentBufferServesOnlyTheSupervisor : Prop :=
  (∀ s : State, s.producerQ = [] → s.consumerQ = [] → s.quiescent = true) ∧
  (∀ (s : State) (c : Command), decode c = .ok .init ∨ decode c = .ok .refresh →
    (s.present .supervisor c).quiescent = true) ∧
  ∀ s t : State, s.quiescent = true → step s = .next t →
    t.producerQ = s.producerQ ∧ t.consumerQ = s.consumerQ ∧
      (t.rspValid = true → s.edge.grant = some .supervisor) ∧
      (t.response = none → s.rstPin = false → s.sameBlock t) ∧
      (s.rewinds = false → t.quiescent = true) ∧
      (s.rewinds = true → t.head = 0 ∧ t.tail = 0 ∧ t.occ = 0 ∧ t.lastStatus = statusCode .ok)

/-- R165, R150: from a quiescent state, with a supervisor that keeps to its role, every run up to the reset, INIT or
REFRESH leaves the block and what the callers have to issue: the counters it clears are those the callers last left. What
is read as 'both have been told of it' is notes/assumptions/16.md. -/
def Obligations.QuiescentWindowKeepsTheBlock : Prop :=
  ∀ (n : Nat) (s t : State), s.quiescent = true →
    (∀ c ∈ s.supervisorQ, ∀ i, decode c = .ok i → mayIssue .supervisor i = true) →
    core.run n s = .next t →
    (∀ (m : Nat) (u : State), m < n → core.run m s = .next u → u.rewinds = false) →
    t.quiescent = true ∧ s.sameBlock t ∧ t.cfg = s.cfg ∧ t.producerQ = s.producerQ ∧ t.consumerQ = s.consumerQ ∧
      (t.rewinds = true → ∃ u, step t = .next u ∧ u.head = 0 ∧ u.tail = 0 ∧ u.lastStatus = statusCode .ok ∧
        u.out = s.out ∧ u.producerQ = s.producerQ ∧ u.consumerQ = s.consumerQ)

/-- R165: with no quiescence assumed, a reset, INIT or REFRESH between the callers' operations has a defined result: the
elements believed queued are gone, a producer's PUT is accepted whatever it saw before, and a consumer's GET gets EMPTY
whatever it saw before. -/
def Obligations.UncoordinatedInitHasADefinedResult : Prop :=
  ∀ s : State, s.rewinds = true → ∃ t, step s = .next t ∧ t.contents = [] ∧ t.lastStatus = statusCode .ok ∧
    (∀ v, ∃ u, exec (.put v) t = .next u ∧ u.response = some (.status (statusCode .ok))) ∧
    (∃ u, exec .get t = .next u ∧ u.response = some (.status (statusCode .empty)) ∧ u.out = s.out)

/-! ## Invariants and refinement -/

/-- R30: the state after reset, for every configuration and every value of `out`, which reset does not write. The
configuration and the value of `out` in `State.reset` itself are the model's choice (notes/assumptions/1.md, 2.md). -/
def Obligations.ResetStateMeetsTheInvariant : Prop :=
  (∀ (c : Config) (out0 : Element), (State.initial c out0).inv = true ∧ (State.initial c out0).head = 0 ∧
    (State.initial c out0).tail = 0 ∧ (∀ a, Memory.read (State.initial c out0).store a = 0#8) ∧
    (State.initial c out0).lastStatus = statusCode .ok ∧ (State.initial c out0).occ = 0 ∧
    (State.initial c out0).isEmpty = true ∧ (State.initial c out0).isFull = false ∧
    (State.initial c out0).out = out0 ∧ (State.initial c out0).hardReset = State.initial c out0) ∧
  ∃ c out0, State.reset = State.initial c out0

/-- R22, R23, R40: from any state the registers and the store can hold, as before the first reset, every step gives such
a state: counters below `M`, and a canonical memory of `CAPACITY` slots. No step changes the configuration (R5, R26). -/
def Obligations.EveryStepKeepsTheRanges : Prop :=
  ∀ s t : State, step s = .next t → t.cfg = s.cfg ∧ (s.inRange = true → t.inRange = true)

/-- R33, and R29, which the spec infers (marked derived): every step keeps the occupancy within `CAPACITY`, the status one of OK, EMPTY and FULL, and the ranges. -/
def Obligations.EveryStepKeepsTheInvariant : Prop :=
  ∀ s t : State, s.inv = true → step s = .next t →
    t.inv = true ∧ t.occ ≤ t.cfg.capacity ∧ t.lastStatus.toNat ≤ 2

/-- The spec infers (R34 and R86, marked derived): the counters are the numbers of successful PUTs and GETs modulo `M`, and the occupancy is their exact
difference, however often either has wrapped. -/
def Obligations.OccupancyCountsOutstandingElements : Prop :=
  (∀ (c : Config) (out0 : Element), (State.initial c out0).countedBy ⟨0, 0⟩) ∧
  (∀ (s : State) (n : Tally), s.countedBy n → s.occ = n.puts - n.gets) ∧
  ∀ (i : Instr) (s t : State) (n : Tally), s.countedBy n → exec i s = .next t → t.countedBy (n.after i t.response)

/-- The spec infers (R87, marked derived): two outstanding elements share a slot exactly when `R_WRAP != 0`, `0 < head < tail` and `occ() > R_WRAP`; with
`WrapSafe` none ever do. -/
def Obligations.HazardIsSharedSlot : Prop :=
  ∀ s : State, s.inRange = true → s.occ ≤ s.cfg.capacity →
    ((s.cfg.rWrap ≠ 0 ∧ 0 < s.head ∧ s.head < s.tail ∧ s.cfg.rWrap < s.occ) ↔
      ∃ j k, j < k ∧ k < s.occ ∧ s.slotAt j = s.slotAt k) ∧
    (s.hazard = true ↔ ∃ j k, j < k ∧ k < s.occ ∧ s.slotAt j = s.slotAt k) ∧
    (s.cfg.WrapSafe → s.hazard = false)

/-- The spec infers (R168, marked derived): without `WrapSafe`, a PUT that finds `head = 0` after a wrap with `R_WRAP` or
more elements unread answers OK and overwrites one of them: it is lost, a GET will return the new element in its place,
the count stays exact, and nothing reports the loss. -/
def Obligations.PutAtTheCounterWrapOverwrites : Prop :=
  ∀ (v : Element) (s : State), s.inRange = true → s.cfg.rWrap ≠ 0 → s.head = 0 → s.tail ≠ 0 →
    s.cfg.rWrap ≤ s.occ → s.occ < s.cfg.capacity →
    ∃ t, exec (.put v) s = .next t ∧ t.response = some (.status (statusCode .ok)) ∧ t.occ = s.occ + 1 ∧
      t.hazard = true ∧
      ∃ k, k < s.occ ∧ (s.tail + k) % s.cfg.modulus = s.cfg.modulus - s.cfg.rWrap ∧ s.slotAt k = s.writeSlot ∧
        t.contents[k]? = some v

/-- The spec infers (R91, marked derived): each operation acts on the contents as on an ideal queue, with the same answer, status and output, unless it is
a PUT after which the condition of R87 holds. -/
def Obligations.EachOperationRefinesTheQueue : Prop :=
  ∀ (i : Instr) (s t : State), s.inv = true → exec i s = .next t →
    (i ∈ Set.range Instr.put → t.hazard = false) →
    t.ideal = (Ideal.perform s.cfg.capacity i s.ideal).1 ∧
      t.response = some (Ideal.perform s.cfg.capacity i s.ideal).2

/-- R52 with the proviso that the spec infers (R104 and R106, marked derived): in a `WrapSafe` configuration every sequence of operations gives the answers, the status, the output
and the contents of an ideal first-in first-out queue of `CAPACITY` elements. -/
def Obligations.WrapSafeBlockIsAFifo : Prop :=
  ∀ (ops : List Instr) (s : State), s.inv = true → s.cfg.WrapSafe →
    ∃ t, performAll ops s = .next t ∧
      t.ideal = (Ideal.performAll s.cfg.capacity ops s.ideal).1 ∧
      t.responses = s.responses ++ (Ideal.performAll s.cfg.capacity ops s.ideal).2
end

