-- ==== Sys2Proof/Laws/Counter.lean ====
section
/-! SUPPORT. The arithmetic of the counters: the bound of a configuration, the occupancy as a natural number, and how an
increment of either counter changes it. -/

namespace Sys2Proof.Machine

namespace CounterLaws

theorem modulus_pos (c : Config) : 0 < c.modulus := Nat.two_pow_pos _

theorem capacity_lt_modulus (c : Config) : c.capacity < c.modulus := by
  have h := c.capacity_le
  have hp := modulus_pos c
  unfold Config.modulus at *
  omega

theorem idx_lt (c : Config) (n : Nat) : Counter.idx c n < c.capacity := Nat.mod_lt _ c.capacity_pos

theorem inc_lt (c : Config) (n : Nat) : Counter.inc c n < c.modulus := Nat.mod_lt _ (modulus_pos c)

theorem inc_of_lt {c : Config} {n : Nat} (h : n + 1 < c.modulus) : Counter.inc c n = n + 1 := Nat.mod_eq_of_lt h

theorem inc_last (c : Config) : Counter.inc c (c.modulus - 1) = 0 := by
  have h := modulus_pos c
  rw [Counter.inc, Nat.sub_add_cancel h, Nat.mod_self]

variable {s : State}

theorem writeSlot_lt (s : State) : s.writeSlot < s.cfg.capacity := idx_lt _ _

theorem readSlot_lt (s : State) : s.readSlot < s.cfg.capacity := idx_lt _ _

theorem slotAt_lt (s : State) (k : Nat) : s.slotAt k < s.cfg.capacity := idx_lt _ _

theorem occ_lt (s : State) : s.occ < s.cfg.modulus := by
  have h := modulus_pos s.cfg
  have h1 := Int.emod_nonneg ((s.head : Int) - s.tail) (b := (s.cfg.modulus : Int)) (by omega)
  have h2 := Int.emod_lt_of_pos ((s.head : Int) - s.tail) (b := (s.cfg.modulus : Int)) (by omega)
  unfold State.occ
  omega

theorem occ_of_le (h : s.tail ≤ s.head) (hh : s.head < s.cfg.modulus) : s.occ = s.head - s.tail := by
  unfold State.occ
  rw [Int.emod_eq_of_lt (by omega) (by omega)]
  omega

theorem occ_of_lt (h : s.head < s.tail) (ht : s.tail < s.cfg.modulus) :
    s.occ = s.head + s.cfg.modulus - s.tail := by
  unfold State.occ
  rw [← Int.add_emod_right, Int.emod_eq_of_lt (by omega) (by omega)]
  omega

theorem inRange_iff : s.inRange = true ↔ s.head < s.cfg.modulus ∧ s.tail < s.cfg.modulus ∧
    Memory.wf s.store = true ∧ Memory.below s.cfg.capacity s.store = true := by
  simp [State.inRange, and_assoc]

theorem inv_iff : s.inv = true ↔ s.inRange = true ∧ s.occ ≤ s.cfg.capacity ∧
    (s.lastStatus = statusCode .ok ∨ s.lastStatus = statusCode .empty ∨ s.lastStatus = statusCode .full) := by
  simp [State.inv, and_assoc, or_assoc]

/-- The buffer is empty exactly when the counters are equal. -/
theorem occ_eq_zero_iff (hh : s.head < s.cfg.modulus) (ht : s.tail < s.cfg.modulus) :
    s.occ = 0 ↔ s.head = s.tail := by
  rcases Nat.lt_or_ge s.head s.tail with h | h
  · rw [occ_of_lt h ht]; omega
  · rw [occ_of_le h hh]; omega

/-- The occupancy carries the read counter to the write counter. -/
theorem tail_add_occ (hh : s.head < s.cfg.modulus) (ht : s.tail < s.cfg.modulus) :
    (s.tail + s.occ) % s.cfg.modulus = s.head := by
  rcases Nat.lt_or_ge s.head s.tail with h | h
  · rw [occ_of_lt h ht, show s.tail + (s.head + s.cfg.modulus - s.tail) = s.head + s.cfg.modulus by omega,
      Nat.add_mod_right, Nat.mod_eq_of_lt hh]
  · rw [occ_of_le h hh, show s.tail + (s.head - s.tail) = s.head by omega, Nat.mod_eq_of_lt hh]

theorem isEmpty_eq_true_iff (s : State) : s.isEmpty = true ↔ s.occ = 0 := by simp [State.isEmpty]

theorem isFull_eq_true_iff (s : State) : s.isFull = true ↔ s.occ = s.cfg.capacity := by simp [State.isFull]

/-- The occupancy depends on the configuration and the two counters alone. -/
theorem occ_congr {t : State} (hc : t.cfg = s.cfg) (hh : t.head = s.head) (ht : t.tail = s.tail) : t.occ = s.occ := by
  simp [State.occ, hc, hh, ht]

/-- One element more, where the difference does not wrap. -/
theorem occ_inc_head {t : State} (hc : t.cfg = s.cfg) (hh : t.head = Counter.inc s.cfg s.head) (ht : t.tail = s.tail)
    (h1 : s.head < s.cfg.modulus) (h2 : s.tail < s.cfg.modulus) (h : s.occ + 1 < s.cfg.modulus) :
    t.occ = s.occ + 1 := by
  have e : (s.tail + (s.occ + 1)) % s.cfg.modulus = t.head := by
    rw [hh, Counter.inc, ← Nat.add_assoc, Nat.add_mod, tail_add_occ h1 h2, ← Nat.add_mod_mod s.head 1]
  have hm := modulus_pos s.cfg
  unfold State.occ
  rw [hc, ht, ← e]
  push_cast
  rw [Int.emod_sub_emod, show ((s.tail : Int) + (s.occ + 1) - s.tail) = ((s.occ + 1 : Nat) : Int) by push_cast; ring,
    Int.emod_eq_of_lt (by omega) (by omega)]
  rfl

/-- One element less, where the buffer is not empty. -/
theorem occ_inc_tail {t : State} (hc : t.cfg = s.cfg) (hh : t.head = s.head) (ht : t.tail = Counter.inc s.cfg s.tail)
    (h1 : s.head < s.cfg.modulus) (h2 : s.tail < s.cfg.modulus) (h : s.occ ≠ 0) :
    t.occ = s.occ - 1 := by
  have hl := occ_lt s
  have e := tail_add_occ h1 h2
  have key : t.occ = (((s.occ : Int) - 1) % (s.cfg.modulus : Int)).toNat := by
    have cut : t.occ = (((t.head : Int) - t.tail) % (t.cfg.modulus : Int)).toNat := rfl
    rw [cut, hc, hh, ht, Counter.inc, ← e]
    push_cast
    rw [← Int.sub_emod, show ((s.tail : Int) + s.occ - (s.tail + 1)) = (s.occ : Int) - 1 by ring]
  rw [key, Int.emod_eq_of_lt (by omega) (by omega)]
  omega

end CounterLaws

end Sys2Proof.Machine
end

