-- ==== Sys2Proof/Laws/Memory.lean ====
section
/-! SUPPORT. The sparse memory: a read after a write to the same address gives the value written, a write leaves every
other address alone, and every write keeps the canonical form and the bound of the address space. -/

namespace Sys2Proof.Machine

namespace MemoryLaws

@[simp] theorem read_nil (a : Nat) : Memory.read [] a = 0#8 := rfl

@[simp] theorem wf_nil : Memory.wf [] = true := rfl

@[simp] theorem below_nil (b : Nat) : Memory.below b [] = true := rfl

theorem wfFrom_cons (lo k : Nat) (w : Element) (m : List Host.Cell) :
    Memory.wfFrom lo ((k, w) :: m) = true ↔ lo ≤ k ∧ w ≠ 0#8 ∧ Memory.wfFrom (k + 1) m = true := by
  simp [Memory.wfFrom, and_assoc]

theorem wfFrom_mono {lo lo' : Nat} (h : lo ≤ lo') : ∀ {m : List Host.Cell},
    Memory.wfFrom lo' m = true → Memory.wfFrom lo m = true
  | [], _ => rfl
  | (k, w) :: m, hm => by
    rw [wfFrom_cons] at hm ⊢
    exact ⟨h.trans hm.1, hm.2⟩

/-- Below its lowest listed address a canonical memory holds 0. -/
theorem read_eq_zero_of_wfFrom : ∀ {m : List Host.Cell} {lo a : Nat},
    Memory.wfFrom lo m = true → a < lo → Memory.read m a = 0#8
  | [], _, _, _, _ => rfl
  | (k, w) :: m, lo, a, hm, ha => by
    rw [wfFrom_cons] at hm
    simp [Memory.read, ha.trans_le hm.1]

theorem wfFrom_write : ∀ {m : List Host.Cell} {lo a : Nat} (v : Element),
    Memory.wfFrom lo m = true → lo ≤ a → Memory.wfFrom lo (Memory.write m a v) = true
  | [], lo, a, v, _, ha => by
    unfold Memory.write
    split
    · rfl
    · simp [*, Memory.wfFrom]
  | (k, w) :: m, lo, a, v, hm, ha => by
    have h := (wfFrom_cons lo k w m).1 hm
    unfold Memory.write
    split
    · split
      · exact hm
      · rw [wfFrom_cons, wfFrom_cons]
        exact ⟨ha, ‹_›, by omega, h.2⟩
    · split
      · split
        · exact wfFrom_mono (by omega) h.2.2
        · rw [wfFrom_cons]
          exact ⟨ha, ‹_›, by subst a; exact h.2.2⟩
      · rw [wfFrom_cons]
        exact ⟨h.1, h.2.1, wfFrom_write v h.2.2 (by omega)⟩

/-- A write keeps the canonical form. -/
theorem wf_write {m : List Host.Cell} (a : Nat) (v : Element) (h : Memory.wf m = true) :
    Memory.wf (Memory.write m a v) = true :=
  wfFrom_write v h (Nat.zero_le a)

/-- A write inside the address space keeps every listed address inside it. -/
theorem below_write {b : Nat} : ∀ {m : List Host.Cell} {a : Nat} (v : Element),
    Memory.below b m = true → a < b → Memory.below b (Memory.write m a v) = true
  | [], a, v, _, ha => by
    unfold Memory.write
    split <;> simp [Memory.below, ha]
  | (k, w) :: m, a, v, hm, ha => by
    have h : k < b ∧ Memory.below b m = true := by simpa [Memory.below] using hm
    unfold Memory.write
    have hm' : ∀ c : Host.Cell, c ∈ m → c.1 < b := by simpa [Memory.below] using h.2
    split
    · split
      · exact hm
      · simpa [Memory.below, ha, h.1] using hm'
    · split
      · split
        · exact h.2
        · simpa [Memory.below, ha] using hm'
      · have ih := below_write (b := b) (m := m) (a := a) v h.2 ha
        simpa [Memory.below, h.1] using ih

theorem read_write_from : ∀ {m : List Host.Cell} {lo : Nat} (a : Nat) (v : Element) (b : Nat),
    Memory.wfFrom lo m = true → Memory.read (Memory.write m a v) b = if b = a then v else Memory.read m b
  | [], lo, a, v, b, _ => by
    unfold Memory.write
    by_cases hv : v = 0#8
    · simp [hv]
    · simp only [hv, if_false, Memory.read]
      split_ifs <;> first | rfl | omega
  | (k, w) :: m, lo, a, v, b, hm => by
    have h := (wfFrom_cons lo k w m).1 hm
    have ih := read_write_from (m := m) a v b h.2.2
    have hlow : b < k + 1 → Memory.read m b = 0#8 := read_eq_zero_of_wfFrom h.2.2
    unfold Memory.write
    rcases Nat.lt_trichotomy a k with h1 | h1 | h1
    · rw [if_pos h1]
      by_cases hv : v = 0#8
      · rw [if_pos hv]
        simp only [Memory.read]
        split_ifs <;> first | rfl | omega | simp_all
      · rw [if_neg hv]
        simp only [Memory.read]
        split_ifs <;> first | rfl | omega
    · subst h1
      rw [if_neg (lt_irrefl a), if_pos rfl]
      by_cases hv : v = 0#8
      · rw [if_pos hv]
        simp only [Memory.read]
        split_ifs <;> first | rfl | (rw [hlow (by omega), hv]) | exact hlow (by omega)
      · rw [if_neg hv]
        simp only [Memory.read]
        split_ifs <;> first | rfl | omega
    · rw [if_neg (by omega), if_neg (by omega)]
      simp only [Memory.read, ih]
      split_ifs <;> first | rfl | omega

/-- After a write, the address written reads as the value written, and every other address as before. -/
theorem read_write {m : List Host.Cell} (h : Memory.wf m = true) (a : Nat) (v : Element) (b : Nat) :
    Memory.read (Memory.write m a v) b = if b = a then v else Memory.read m b :=
  read_write_from a v b h

theorem read_write_same {m : List Host.Cell} (h : Memory.wf m = true) (a : Nat) (v : Element) :
    Memory.read (Memory.write m a v) a = v := by
  rw [read_write h, if_pos rfl]

theorem read_write_of_ne {m : List Host.Cell} (h : Memory.wf m = true) {a b : Nat} (v : Element) (hb : b ≠ a) :
    Memory.read (Memory.write m a v) b = Memory.read m b := by
  rw [read_write h, if_neg hb]

end MemoryLaws

end Sys2Proof.Machine
end

