-- ==== Sys2Proof/Laws/State.lean ====
section
/-! SUPPORT. One lemma per field and per update of the state, each true by unfolding, so that no later proof unfolds a
record update. -/

namespace Sys2Proof.Machine

namespace StateLaws

variable (s : State)

@[simp] theorem cfg_advanceHead : s.advanceHead.cfg = s.cfg := rfl
@[simp] theorem store_advanceHead : s.advanceHead.store = s.store := rfl
@[simp] theorem head_advanceHead : s.advanceHead.head = Counter.inc s.cfg s.head := rfl
@[simp] theorem tail_advanceHead : s.advanceHead.tail = s.tail := rfl
@[simp] theorem lastStatus_advanceHead : s.advanceHead.lastStatus = s.lastStatus := rfl
@[simp] theorem out_advanceHead : s.advanceHead.out = s.out := rfl
@[simp] theorem response_advanceHead : s.advanceHead.response = s.response := rfl
@[simp] theorem responses_advanceHead : s.advanceHead.responses = s.responses := rfl
@[simp] theorem producerQ_advanceHead : s.advanceHead.producerQ = s.producerQ := rfl
@[simp] theorem consumerQ_advanceHead : s.advanceHead.consumerQ = s.consumerQ := rfl
@[simp] theorem supervisorQ_advanceHead : s.advanceHead.supervisorQ = s.supervisorQ := rfl
@[simp] theorem schedule_advanceHead : s.advanceHead.schedule = s.schedule := rfl

@[simp] theorem cfg_advanceTail : s.advanceTail.cfg = s.cfg := rfl
@[simp] theorem store_advanceTail : s.advanceTail.store = s.store := rfl
@[simp] theorem head_advanceTail : s.advanceTail.head = s.head := rfl
@[simp] theorem tail_advanceTail : s.advanceTail.tail = Counter.inc s.cfg s.tail := rfl
@[simp] theorem lastStatus_advanceTail : s.advanceTail.lastStatus = s.lastStatus := rfl
@[simp] theorem out_advanceTail : s.advanceTail.out = s.out := rfl
@[simp] theorem response_advanceTail : s.advanceTail.response = s.response := rfl
@[simp] theorem responses_advanceTail : s.advanceTail.responses = s.responses := rfl
@[simp] theorem producerQ_advanceTail : s.advanceTail.producerQ = s.producerQ := rfl
@[simp] theorem consumerQ_advanceTail : s.advanceTail.consumerQ = s.consumerQ := rfl
@[simp] theorem supervisorQ_advanceTail : s.advanceTail.supervisorQ = s.supervisorQ := rfl
@[simp] theorem schedule_advanceTail : s.advanceTail.schedule = s.schedule := rfl

@[simp] theorem cfg_setOut (v : Element) : (s.setOut v).cfg = s.cfg := rfl
@[simp] theorem store_setOut (v : Element) : (s.setOut v).store = s.store := rfl
@[simp] theorem head_setOut (v : Element) : (s.setOut v).head = s.head := rfl
@[simp] theorem tail_setOut (v : Element) : (s.setOut v).tail = s.tail := rfl
@[simp] theorem lastStatus_setOut (v : Element) : (s.setOut v).lastStatus = s.lastStatus := rfl
@[simp] theorem out_setOut (v : Element) : (s.setOut v).out = v := rfl
@[simp] theorem response_setOut (v : Element) : (s.setOut v).response = s.response := rfl
@[simp] theorem responses_setOut (v : Element) : (s.setOut v).responses = s.responses := rfl
@[simp] theorem producerQ_setOut (v : Element) : (s.setOut v).producerQ = s.producerQ := rfl
@[simp] theorem consumerQ_setOut (v : Element) : (s.setOut v).consumerQ = s.consumerQ := rfl
@[simp] theorem supervisorQ_setOut (v : Element) : (s.setOut v).supervisorQ = s.supervisorQ := rfl
@[simp] theorem schedule_setOut (v : Element) : (s.setOut v).schedule = s.schedule := rfl

@[simp] theorem cfg_setStatus (st : Status) : (s.setStatus st).cfg = s.cfg := rfl
@[simp] theorem store_setStatus (st : Status) : (s.setStatus st).store = s.store := rfl
@[simp] theorem head_setStatus (st : Status) : (s.setStatus st).head = s.head := rfl
@[simp] theorem tail_setStatus (st : Status) : (s.setStatus st).tail = s.tail := rfl
@[simp] theorem lastStatus_setStatus (st : Status) : (s.setStatus st).lastStatus = statusCode st := rfl
@[simp] theorem out_setStatus (st : Status) : (s.setStatus st).out = s.out := rfl
@[simp] theorem response_setStatus (st : Status) : (s.setStatus st).response = s.response := rfl
@[simp] theorem responses_setStatus (st : Status) : (s.setStatus st).responses = s.responses := rfl
@[simp] theorem producerQ_setStatus (st : Status) : (s.setStatus st).producerQ = s.producerQ := rfl
@[simp] theorem consumerQ_setStatus (st : Status) : (s.setStatus st).consumerQ = s.consumerQ := rfl
@[simp] theorem supervisorQ_setStatus (st : Status) : (s.setStatus st).supervisorQ = s.supervisorQ := rfl
@[simp] theorem schedule_setStatus (st : Status) : (s.setStatus st).schedule = s.schedule := rfl

@[simp] theorem cfg_respond (r : Result) : (s.respond r).cfg = s.cfg := rfl
@[simp] theorem store_respond (r : Result) : (s.respond r).store = s.store := rfl
@[simp] theorem head_respond (r : Result) : (s.respond r).head = s.head := rfl
@[simp] theorem tail_respond (r : Result) : (s.respond r).tail = s.tail := rfl
@[simp] theorem lastStatus_respond (r : Result) : (s.respond r).lastStatus = s.lastStatus := rfl
@[simp] theorem out_respond (r : Result) : (s.respond r).out = s.out := rfl
@[simp] theorem response_respond (r : Result) : (s.respond r).response = some r := rfl
@[simp] theorem responses_respond (r : Result) : (s.respond r).responses = s.responses ++ [r] := rfl
@[simp] theorem producerQ_respond (r : Result) : (s.respond r).producerQ = s.producerQ := rfl
@[simp] theorem consumerQ_respond (r : Result) : (s.respond r).consumerQ = s.consumerQ := rfl
@[simp] theorem supervisorQ_respond (r : Result) : (s.respond r).supervisorQ = s.supervisorQ := rfl
@[simp] theorem schedule_respond (r : Result) : (s.respond r).schedule = s.schedule := rfl

@[simp] theorem cfg_report (st : Status) : (s.report st).cfg = s.cfg := rfl
@[simp] theorem store_report (st : Status) : (s.report st).store = s.store := rfl
@[simp] theorem head_report (st : Status) : (s.report st).head = s.head := rfl
@[simp] theorem tail_report (st : Status) : (s.report st).tail = s.tail := rfl
@[simp] theorem lastStatus_report (st : Status) : (s.report st).lastStatus = statusCode st := rfl
@[simp] theorem out_report (st : Status) : (s.report st).out = s.out := rfl
@[simp] theorem response_report (st : Status) : (s.report st).response = some (.status (statusCode st)) := rfl
@[simp] theorem responses_report (st : Status) : (s.report st).responses = s.responses ++ [.status (statusCode st)] := rfl
@[simp] theorem producerQ_report (st : Status) : (s.report st).producerQ = s.producerQ := rfl
@[simp] theorem consumerQ_report (st : Status) : (s.report st).consumerQ = s.consumerQ := rfl
@[simp] theorem supervisorQ_report (st : Status) : (s.report st).supervisorQ = s.supervisorQ := rfl
@[simp] theorem schedule_report (st : Status) : (s.report st).schedule = s.schedule := rfl

@[simp] theorem cfg_rewind : s.rewind.cfg = s.cfg := rfl
@[simp] theorem store_rewind : s.rewind.store = s.store := rfl
@[simp] theorem head_rewind : s.rewind.head = 0 := rfl
@[simp] theorem tail_rewind : s.rewind.tail = 0 := rfl
@[simp] theorem lastStatus_rewind : s.rewind.lastStatus = statusCode .ok := rfl
@[simp] theorem out_rewind : s.rewind.out = s.out := rfl
@[simp] theorem response_rewind : s.rewind.response = s.response := rfl
@[simp] theorem responses_rewind : s.rewind.responses = s.responses := rfl
@[simp] theorem producerQ_rewind : s.rewind.producerQ = s.producerQ := rfl
@[simp] theorem consumerQ_rewind : s.rewind.consumerQ = s.consumerQ := rfl
@[simp] theorem supervisorQ_rewind : s.rewind.supervisorQ = s.supervisorQ := rfl
@[simp] theorem schedule_rewind : s.rewind.schedule = s.schedule := rfl

@[simp] theorem cfg_initialise : s.initialise.cfg = s.cfg := rfl
@[simp] theorem store_initialise : s.initialise.store = [] := rfl
@[simp] theorem head_initialise : s.initialise.head = 0 := rfl
@[simp] theorem tail_initialise : s.initialise.tail = 0 := rfl
@[simp] theorem lastStatus_initialise : s.initialise.lastStatus = statusCode .ok := rfl
@[simp] theorem out_initialise : s.initialise.out = s.out := rfl
@[simp] theorem response_initialise : s.initialise.response = s.response := rfl
@[simp] theorem responses_initialise : s.initialise.responses = s.responses := rfl
@[simp] theorem producerQ_initialise : s.initialise.producerQ = s.producerQ := rfl
@[simp] theorem consumerQ_initialise : s.initialise.consumerQ = s.consumerQ := rfl
@[simp] theorem supervisorQ_initialise : s.initialise.supervisorQ = s.supervisorQ := rfl
@[simp] theorem schedule_initialise : s.initialise.schedule = s.schedule := rfl

@[simp] theorem cfg_quiet : s.quiet.cfg = s.cfg := rfl
@[simp] theorem store_quiet : s.quiet.store = s.store := rfl
@[simp] theorem head_quiet : s.quiet.head = s.head := rfl
@[simp] theorem tail_quiet : s.quiet.tail = s.tail := rfl
@[simp] theorem lastStatus_quiet : s.quiet.lastStatus = s.lastStatus := rfl
@[simp] theorem out_quiet : s.quiet.out = s.out := rfl
@[simp] theorem response_quiet : s.quiet.response = none := rfl
@[simp] theorem responses_quiet : s.quiet.responses = s.responses := rfl
@[simp] theorem producerQ_quiet : s.quiet.producerQ = s.producerQ := rfl
@[simp] theorem consumerQ_quiet : s.quiet.consumerQ = s.consumerQ := rfl
@[simp] theorem supervisorQ_quiet : s.quiet.supervisorQ = s.supervisorQ := rfl
@[simp] theorem schedule_quiet : s.quiet.schedule = s.schedule := rfl

@[simp] theorem cfg_hardReset : s.hardReset.cfg = s.cfg := rfl
@[simp] theorem store_hardReset : s.hardReset.store = [] := rfl
@[simp] theorem head_hardReset : s.hardReset.head = 0 := rfl
@[simp] theorem tail_hardReset : s.hardReset.tail = 0 := rfl
@[simp] theorem lastStatus_hardReset : s.hardReset.lastStatus = statusCode .ok := rfl
@[simp] theorem out_hardReset : s.hardReset.out = s.out := rfl
@[simp] theorem response_hardReset : s.hardReset.response = none := rfl
@[simp] theorem responses_hardReset : s.hardReset.responses = s.responses := rfl
@[simp] theorem producerQ_hardReset : s.hardReset.producerQ = s.producerQ := rfl
@[simp] theorem consumerQ_hardReset : s.hardReset.consumerQ = s.consumerQ := rfl
@[simp] theorem supervisorQ_hardReset : s.hardReset.supervisorQ = s.supervisorQ := rfl
@[simp] theorem schedule_hardReset : s.hardReset.schedule = s.schedule := rfl

@[simp] theorem cfg_withListing (l : List Line) : (s.withListing l).cfg = s.cfg := rfl
@[simp] theorem store_withListing (l : List Line) : (s.withListing l).store = s.store := rfl
@[simp] theorem head_withListing (l : List Line) : (s.withListing l).head = s.head := rfl
@[simp] theorem tail_withListing (l : List Line) : (s.withListing l).tail = s.tail := rfl
@[simp] theorem lastStatus_withListing (l : List Line) : (s.withListing l).lastStatus = s.lastStatus := rfl
@[simp] theorem out_withListing (l : List Line) : (s.withListing l).out = s.out := rfl
@[simp] theorem response_withListing (l : List Line) : (s.withListing l).response = s.response := rfl
@[simp] theorem responses_withListing (l : List Line) : (s.withListing l).responses = s.responses := rfl
@[simp] theorem producerQ_withListing (l : List Line) : (s.withListing l).producerQ = issuedBy .producer l := rfl
@[simp] theorem consumerQ_withListing (l : List Line) : (s.withListing l).consumerQ = issuedBy .consumer l := rfl
@[simp] theorem supervisorQ_withListing (l : List Line) : (s.withListing l).supervisorQ = issuedBy .supervisor l := rfl
@[simp] theorem schedule_withListing (l : List Line) : (s.withListing l).schedule = l.map Line.edge := rfl

@[simp] theorem cfg_setQueue (a : Agent) (q : List Command) : (s.setQueue a q).cfg = s.cfg := by
  cases a <;> rfl
@[simp] theorem store_setQueue (a : Agent) (q : List Command) : (s.setQueue a q).store = s.store := by
  cases a <;> rfl
@[simp] theorem head_setQueue (a : Agent) (q : List Command) : (s.setQueue a q).head = s.head := by
  cases a <;> rfl
@[simp] theorem tail_setQueue (a : Agent) (q : List Command) : (s.setQueue a q).tail = s.tail := by
  cases a <;> rfl
@[simp] theorem lastStatus_setQueue (a : Agent) (q : List Command) : (s.setQueue a q).lastStatus = s.lastStatus := by
  cases a <;> rfl
@[simp] theorem out_setQueue (a : Agent) (q : List Command) : (s.setQueue a q).out = s.out := by
  cases a <;> rfl
@[simp] theorem response_setQueue (a : Agent) (q : List Command) : (s.setQueue a q).response = s.response := by
  cases a <;> rfl
@[simp] theorem responses_setQueue (a : Agent) (q : List Command) : (s.setQueue a q).responses = s.responses := by
  cases a <;> rfl
@[simp] theorem schedule_setQueue (a : Agent) (q : List Command) : (s.setQueue a q).schedule = s.schedule := by
  cases a <;> rfl

@[simp] theorem cfg_sampled : s.sampled.cfg = s.cfg := by
  unfold State.sampled
  split <;> simp
@[simp] theorem store_sampled : s.sampled.store = s.store := by
  unfold State.sampled
  split <;> simp
@[simp] theorem head_sampled : s.sampled.head = s.head := by
  unfold State.sampled
  split <;> simp
@[simp] theorem tail_sampled : s.sampled.tail = s.tail := by
  unfold State.sampled
  split <;> simp
@[simp] theorem lastStatus_sampled : s.sampled.lastStatus = s.lastStatus := by
  unfold State.sampled
  split <;> simp
@[simp] theorem out_sampled : s.sampled.out = s.out := by
  unfold State.sampled
  split <;> simp
@[simp] theorem response_sampled : s.sampled.response = s.response := by
  unfold State.sampled
  split <;> simp
@[simp] theorem responses_sampled : s.sampled.responses = s.responses := by
  unfold State.sampled
  split <;> simp

@[simp] theorem schedule_sampled : s.sampled.schedule = s.schedule.tail := by
  unfold State.sampled
  split <;> simp

@[simp] theorem queue_setQueue (a b : Agent) (q : List Command) :
    (s.setQueue a q).queue b = if b = a then q else s.queue b := by
  cases a <;> cases b <;> rfl

@[simp] theorem queue_mk_schedule (l : List Edge) (b : Agent) : ({ s with schedule := l }).queue b = s.queue b := by
  cases b <;> rfl

@[simp] theorem cfg_present (a : Agent) (c : Command) : (s.present a c).cfg = s.cfg := by
  simp [State.present]
@[simp] theorem store_present (a : Agent) (c : Command) : (s.present a c).store = s.store := by
  simp [State.present]
@[simp] theorem head_present (a : Agent) (c : Command) : (s.present a c).head = s.head := by
  simp [State.present]
@[simp] theorem tail_present (a : Agent) (c : Command) : (s.present a c).tail = s.tail := by
  simp [State.present]
@[simp] theorem lastStatus_present (a : Agent) (c : Command) : (s.present a c).lastStatus = s.lastStatus := by
  simp [State.present]
@[simp] theorem out_present (a : Agent) (c : Command) : (s.present a c).out = s.out := by
  simp [State.present]
@[simp] theorem response_present (a : Agent) (c : Command) : (s.present a c).response = s.response := by
  simp [State.present]
@[simp] theorem responses_present (a : Agent) (c : Command) : (s.present a c).responses = s.responses := by
  simp [State.present]
@[simp] theorem schedule_present (a : Agent) (c : Command) :
    (s.present a c).schedule = ⟨false, some a⟩ :: s.schedule := by
  simp [State.present]

/-- A presented word is in front of its agent's operations, and no other agent's operations change. -/
theorem queue_present (a b : Agent) (c : Command) :
    (s.present a c).queue b = if b = a then c :: s.queue b else s.queue b := by
  unfold State.present
  rw [queue_setQueue]
  split
  · subst b; rfl
  · simp

/-- Once the presented word has been sampled, the machine is as it was. -/
theorem sampled_present (a : Agent) (c : Command) : (s.present a c).sampled = s := by
  cases a <;> rfl

/-- The agent served at the edge has one operation less to issue; no other agent's operations change. -/
theorem queue_sampled (b : Agent) :
    s.sampled.queue b = if s.edge.grant = some b then (s.queue b).tail else s.queue b := by
  unfold State.sampled
  cases h : s.edge.grant with
  | none => cases b <;> simp [State.queue]
  | some a =>
    simp only [queue_setQueue, Option.some.injEq]
    by_cases hb : b = a
    · subst hb; simp
    · rw [if_neg hb, if_neg (Ne.symm hb)]
      cases b <;> rfl

end StateLaws

end Sys2Proof.Machine
end

