-- ==== Sys2Proof/Laws/Ops.lean ====
section
/-! SUPPORT. What each shared operation can do: the memory primitives inside the address space, the meanings without
their unreachable faults (a slot index is always in range, R43), the action of an edge, and sequences of operations. -/

namespace Sys2Proof.Machine

namespace OpsLaws

variable {s t : State}

theorem memRead_of_lt {i : Nat} (h : i < s.cfg.capacity) : s.memRead i = .ok (Memory.read s.store i) := if_pos h

theorem memWrite_of_lt {i : Nat} (v : Element) (h : i < s.cfg.capacity) :
    s.memWrite i v = .ok { s with store := Memory.write s.store i v } := if_pos h

/-- PEEK answers the element at the read slot, or 0 on an empty buffer. -/
theorem execPeek_eq (s : State) : execPeek s =
    .next (s.respond (.element (if s.isEmpty then 0#8 else Memory.read s.store s.readSlot))) := by
  unfold execPeek
  rw [memRead_of_lt (CounterLaws.readSlot_lt s)]
  split <;> rfl

/-- GET either reports EMPTY, or moves the element at the read slot to `out` and advances `tail`. -/
theorem execGet_eq (s : State) : execGet s =
    .next (if s.isEmpty then s.report .empty
      else ((s.setOut (Memory.read s.store s.readSlot)).advanceTail).report .ok) := by
  unfold execGet
  rw [memRead_of_lt (CounterLaws.readSlot_lt s)]
  split <;> rfl

/-- PUT either reports FULL, or writes the element to the write slot and advances `head`. -/
theorem execPut_eq (v : Element) (s : State) : execPut v s =
    .next (if s.isFull then s.report .full
      else (({ s with store := Memory.write s.store s.writeSlot v } : State).advanceHead).report .ok) := by
  unfold execPut
  rw [memWrite_of_lt v (CounterLaws.writeSlot_lt s)]
  split <;> rfl

/-- What a step does, by the action of its edge. -/
theorem step_eq_next (h : step s = .next t) :
    (s.action = .reset ∧ t = s.sampled.hardReset) ∨ (s.action = .idle ∧ t = s.sampled.quiet) ∨
      ∃ i, s.action = .perform i ∧ exec i s.sampled = .next t := by
  unfold step at h
  split at h
  · exact .inl ⟨‹_›, by injection h with h; exact h.symm⟩
  · exact .inr (.inl ⟨‹_›, by injection h with h; exact h.symm⟩)
  · exact .inr (.inr ⟨_, ‹_›, h⟩)
  · cases h

/-- With `rst = 0` and a command presented, the action is what the decoder reads. -/
theorem action_of_cmd {c : Command} (hr : s.rstPin = false) (hc : s.cmdPin = some c) :
    s.action = match decode c with
      | .ok i => .perform i
      | .error (.reservedOpcode op) => .reserved op := by
  cases hd : decode c with
  | ok i => simp [State.action, hr, hc, hd]
  | error e => cases e; simp [State.action, hr, hc, hd]

/-- An operation is performed only with `rst = 0`, and it is what the served agent's next command word decodes to. -/
theorem command_of_perform {i : Instr} (h : s.action = .perform i) : s.rstPin = false ∧
    ∃ a c, s.edge.grant = some a ∧ (s.queue a).head? = some c ∧ s.cmdPin = some c ∧ decode c = .ok i := by
  cases hr : s.rstPin with
  | true => simp [State.action, hr] at h
  | false =>
    cases hc : s.cmdPin with
    | none => simp [State.action, hr, hc] at h
    | some c =>
      rw [action_of_cmd hr hc] at h
      split at h
      · injection h with h
        subst h
        have hq := hc
        unfold State.cmdPin at hq
        split at hq
        · cases hq
        · exact ⟨rfl, _, c, ‹_›, hq, rfl, ‹_›⟩
      · cases h

theorem run_succ_of_next (m : Host.Core) (n : Nat) {x y : m.State} (h : m.step x = .next y) :
    m.run (n + 1) x = m.run n y := by
  simp [Host.Core.run, h]

/-- A run of no steps stays where it is. -/
theorem core_run_zero (s : State) : core.run 0 s = .next s := rfl

/-- A run takes its first step and goes on from there. -/
theorem core_run_succ {n : Nat} (h : step s = .next t) : core.run (n + 1) s = core.run n t :=
  run_succ_of_next core n h

@[simp] theorem performAll_nil (s : State) : performAll [] s = .next s := rfl

theorem performAll_cons {i : Instr} {rest : List Instr} (h : exec i s = .next t) :
    performAll (i :: rest) s = performAll rest t := by
  simp [performAll, h]

theorem performAll_append {xs ys : List Instr} : ∀ {s t : State}, performAll xs s = .next t →
    performAll (xs ++ ys) s = performAll ys t := by
  induction xs with
  | nil => intro s t h; injection h with h; rw [h]; rfl
  | cons i rest ih =>
    intro s t h
    simp only [performAll, List.cons_append] at h ⊢
    split at h
    · exact ih h
    · cases h
    · cases h

end OpsLaws

end Sys2Proof.Machine
end

