-- ==== Sys2Proof/Laws/PerInstr.lean ====
section
/-! SUPPORT. One statement per instruction: the canonical word of a well-formed instruction carries its opcode in
`cmd[11:8]`, its operand in `cmd[7:0]`, and a legal opcode (R60 to R62). -/

namespace Sys2Proof.Laws.CanonicalWord

/-- The fields of an instruction's canonical word. -/
def Statement (i : Instr) : Prop :=
  i.wf = true ∧ opcodeField (encode i) = opcodeOf i ∧ dataField (encode i) = dataOf i ∧ (opcodeOf i).toNat ≤ 8

/-- The fields of any two-field word are what it was made of. -/
theorem fields_append (op : Opcode) (d : Element) : opcodeField (op ++ d) = op ∧ dataField (op ++ d) = d := by
  constructor <;> apply BitVec.eq_of_getLsbD_eq <;> intro k hk
  · simp only [opcodeField, BitVec.getLsbD_extractLsb', BitVec.getLsbD_append, hk, decide_true, Bool.true_and]
    rw [if_neg (by omega)]
    congr 1
    omega
  · simp only [dataField, BitVec.getLsbD_extractLsb', BitVec.getLsbD_append, hk, decide_true, Bool.true_and]
    rw [if_pos (by omega)]
    congr 1
    omega

/-- The canonical word of any instruction has its two fields. -/
theorem fields_encode (i : Instr) : opcodeField (encode i) = opcodeOf i ∧ dataField (encode i) = dataOf i :=
  fields_append _ _

theorem init : Statement .init := ⟨rfl, (fields_encode _).1, (fields_encode _).2, by decide⟩
theorem getstatus : Statement .getstatus := ⟨rfl, (fields_encode _).1, (fields_encode _).2, by decide⟩
theorem isfull : Statement .isfull := ⟨rfl, (fields_encode _).1, (fields_encode _).2, by decide⟩
theorem isempty : Statement .isempty := ⟨rfl, (fields_encode _).1, (fields_encode _).2, by decide⟩
theorem peek : Statement .peek := ⟨rfl, (fields_encode _).1, (fields_encode _).2, by decide⟩
theorem get : Statement .get := ⟨rfl, (fields_encode _).1, (fields_encode _).2, by decide⟩
theorem put (v : Element) : Statement (.put v) :=
  ⟨decide_eq_true v.isLt, (fields_encode _).1, (fields_encode _).2, by simp [opcodeOf]⟩
theorem count : Statement .count := ⟨rfl, (fields_encode _).1, (fields_encode _).2, by decide⟩
theorem refresh : Statement .refresh := ⟨rfl, (fields_encode _).1, (fields_encode _).2, by decide⟩

end Sys2Proof.Laws.CanonicalWord
end

