-- ==== Sys2Proof/Laws/Quiescence.lean ====
section
/-! SUPPORT. Quiescence (R165), one edge at a time: what an edge adds to it, that it is a fact of the environment alone,
and the pieces of the environment it leaves. -/

namespace Sys2Proof.Machine

namespace QuiescenceLaws

variable {s t : State}

/-- An edge does the same in two states with the same operations to come. -/
theorem edge_facts_congr (hp : t.producerQ = s.producerQ) (hc : t.consumerQ = s.consumerQ)
    (hv : t.supervisorQ = s.supervisorQ) (hs : t.schedule = s.schedule) :
    t.edge = s.edge ∧ t.cmdPin = s.cmdPin ∧ t.action = s.action := by
  have he : t.edge = s.edge := by unfold State.edge; rw [hs]
  have hq : ∀ a, t.queue a = s.queue a := by intro a; cases a <;> assumption
  have hm : t.cmdPin = s.cmdPin := by simp only [State.cmdPin, he, hq]
  exact ⟨he, hm, by unfold State.action State.rstPin; rw [he, hm]⟩

/-- Quiescence is a fact of the operations to come alone. -/
theorem quiescentFor_congr : ∀ (n : Nat) {s t : State}, t.producerQ = s.producerQ → t.consumerQ = s.consumerQ →
    t.supervisorQ = s.supervisorQ → t.schedule = s.schedule → State.quiescentFor n t = State.quiescentFor n s
  | 0, _, _, _, _, _, _ => rfl
  | n + 1, s, t, hp, hc, hv, hs => by
    obtain ⟨he, hm, ha⟩ := edge_facts_congr hp hc hv hs
    have hq : ∀ a, t.sampled.queue a = s.sampled.queue a := by
      intro a
      have : t.queue a = s.queue a := by cases a <;> assumption
      rw [StateLaws.queue_sampled, StateLaws.queue_sampled, he, this]
    simp only [State.quiescentFor, State.callerPresents, State.rewinds, he, hm, ha]
    rw [quiescentFor_congr n (hq .producer) (hq .consumer) (hq .supervisor)
      (by rw [StateLaws.schedule_sampled, StateLaws.schedule_sampled, hs])]

theorem quiescent_congr (hp : t.producerQ = s.producerQ) (hc : t.consumerQ = s.consumerQ)
    (hv : t.supervisorQ = s.supervisorQ) (hs : t.schedule = s.schedule) : t.quiescent = s.quiescent := by
  unfold State.quiescent
  rw [hs]
  exact quiescentFor_congr _ hp hc hv hs

/-- With the schedule used up, nothing is presented. -/
theorem edge_of_schedule_nil (h : s.schedule = []) : s.edge = ⟨false, none⟩ := by
  unfold State.edge; rw [h]

/-- The buffer is quiescent when no caller presents at this edge and either the reset, INIT or REFRESH is this edge's
step, or the buffer is quiescent after it. -/
theorem quiescent_eq (s : State) :
    s.quiescent = (!s.callerPresents && (s.rewinds || s.sampled.quiescent)) := by
  unfold State.quiescent
  rw [StateLaws.schedule_sampled]
  cases h : s.schedule with
  | nil => simp [State.quiescentFor, State.callerPresents, edge_of_schedule_nil h]
  | cons e rest => rfl

/-- An edge at which no caller presents leaves what both have to issue. -/
theorem callers_sampled (h : s.callerPresents = false) :
    s.sampled.producerQ = s.producerQ ∧ s.sampled.consumerQ = s.consumerQ := by
  have key : ∀ a, a ≠ .supervisor → s.sampled.queue a = s.queue a := by
    intro a ha
    rw [StateLaws.queue_sampled]
    split
    · rename_i hg
      cases hq : s.queue a with
      | nil => rfl
      | cons c rest => cases a <;> simp_all [State.callerPresents, State.cmdPin]
    · rfl
  exact ⟨key .producer (by decide), key .consumer (by decide)⟩

end QuiescenceLaws

end Sys2Proof.Machine
end

