-- ==== Sys2Proof/Tests/Slice0.lean ====
section
/-! SUPPORT. Tests of one operation or one step each, with the expected values of spec/95_test_vectors.md and
spec/30_encoding.md section 8, the checks that refuse ill-formed terms, and for every obligation with hypotheses a
witness that meets them. -/

namespace Sys2Proof.Tests

open Sys2Proof Sys2Proof.Machine

/-- A state of the block, the store given as its listed cells. -/
def block (cfg : Config) (head tail : Nat) (store : List Host.Cell) (st : StatusCode) (out : Element) : State :=
  { State.initial cfg out with head := head, tail := tail, store := store, lastStatus := st }

/-- The next state, if the outcome is one. -/
def after (o : Host.Outcome State Fault Refusal) : Option State :=
  match o with
  | .next s => some s
  | .fault _ => none
  | .refused _ => none

/-- The reserved opcode for which the outcome is a refusal. -/
def refusedOpcode (o : Host.Outcome State Fault Refusal) : Option Opcode :=
  match o with
  | .refused (.reservedOpcode op) => some op
  | .refused (.notModelled _) => none
  | .next _ => none
  | .fault _ => none

/-- `[50, 20, 30, 40]`, the store of the vectors T4 to T6. -/
def store4 : List Host.Cell := [(0, 50#8), (1, 20#8), (2, 30#8), (3, 40#8)]

/-- `[10, 20, 30, 40]`, the store of the vectors T9 to T11. -/
def full4 : List Host.Cell := [(0, 10#8), (1, 20#8), (2, 30#8), (3, 40#8)]

/-- Vector T5's pre-state: four elements, the oldest in slot 1. -/
def t5 : State := block .doc4 5 1 store4 0#3 10#8

/-- Vector T6's pre-state: empty. -/
def t6 : State := block .doc4 5 5 store4 0#3 50#8

/-- Vector T9's pre-state: full. -/
def t9 : State := block .doc4 4 0 full4 0#3 7#8

/-- The state of program P3 before step 16: two elements across the counter wrap, not `WrapSafe`. -/
def p3 : State := block .odd3 0 6 [(0, 170#8), (1, 187#8), (2, 165#8)] 0#3 165#8

/-- The state of program P3 after step 16: the condition of R87 holds. -/
def p3' : State := block .odd3 1 6 [(0, 204#8), (1, 187#8), (2, 165#8)] 0#3 165#8

/-! ## Decoding: the words of spec/30_encoding.md section 8, bit by bit -/

theorem test_decode_init : decode 0b0000_00000000#12 = .ok .init := by decide
theorem test_decode_getstatus : decode 0b0001_00000000#12 = .ok .getstatus := by decide
theorem test_decode_isfull : decode 0b0010_00000000#12 = .ok .isfull := by decide
theorem test_decode_isempty : decode 0b0011_00000000#12 = .ok .isempty := by decide
theorem test_decode_peek : decode 0b0100_00000000#12 = .ok .peek := by decide
theorem test_decode_get : decode 0b0101_00000000#12 = .ok .get := by decide
theorem test_decode_put_10 : decode 0b0110_00001010#12 = .ok (.put 10#8) := by decide
theorem test_decode_count : decode 0b0111_00000000#12 = .ok .count := by decide
theorem test_decode_refresh : decode 0b1000_00000000#12 = .ok .refresh := by decide
theorem test_decode_get_ignored_bits : decode 0b0101_10100101#12 = .ok .get := by decide
theorem test_decode_reserved : decode 0b1001_00000000#12 = .error (.reservedOpcode 9#4) := by decide
theorem test_decode_reserved_last : decode 0xFFF#12 = .error (.reservedOpcode 15#4) := by decide
theorem test_encode_put_255 : encode (.put 255#8) = 0x6FF#12 := by decide
theorem test_encode_refresh : encode .refresh = 0x800#12 := by decide
theorem test_table_word : decodeTableWord 16 0x632 = some (.put 50#8) := by decide
theorem test_table_word_too_wide : decodeTableWord 16 0x1632 = none := by decide

/-! ## What the checks refuse -/

theorem test_wf_capacity_zero : legalConfig 3 0 = false := by decide
theorem test_wf_capacity_modulus : legalConfig 3 8 = false := by decide
theorem test_wf_counter_width_zero : legalConfig 0 1 = false := by decide
theorem test_wf_capacity_greatest : legalConfig 3 7 = true := by decide
theorem test_wf_no_config : (Config.ofNats 8 256).isNone = true := by decide
theorem test_wf_operand_256 : Instr.putOfNat 256 = none := by decide
theorem test_wf_operand_255 : Instr.putOfNat 255 = some (.put 255#8) := by decide

/-! ## Functions: spec/95_test_vectors.md section 2 -/

theorem test_inc_wraps : Counter.inc .doc4 7 = 0 := by decide
theorem test_idx_skips_at_wrap : (Counter.idx .odd3 7, Counter.idx .odd3 0) = (1, 0) := by decide
theorem test_occ_across_wrap : (block .doc4 1 6 [] 0#3 0#8).occ = 3 := by decide
theorem test_occ_ref200 : (block .ref200 3 250 [] 0#3 0#8).occ = 9 := by decide
theorem test_full_is_equality : (block .doc4 3 6 [] 0#3 0#8).isFull = false := by decide
theorem test_rwrap : (Config.ref200.rWrap, Config.odd3.rWrap, Config.doc4.rWrap) = (56, 2, 0) := by decide

/-! ## Operations: spec/95_test_vectors.md sections 2 and 3 -/

/-- S1: the registers -/
theorem test_init :
    (after (exec .init (block .doc4 5 2 store4 2#3 20#8))).map (fun t => (t.head, t.tail, t.lastStatus, t.out))
    = some (0, 0, 0#3, 20#8) := by decide

/-- S1: the store and the response -/
theorem test_init_store :
    (after (exec .init (block .doc4 5 2 store4 2#3 20#8))).map (fun t => (t.store, t.response))
    = some ([], some .nothing) := by decide

/-- S2: the registers -/
theorem test_refresh :
    (after (exec .refresh (block .doc4 5 2 store4 2#3 20#8))).map (fun t => (t.head, t.tail, t.lastStatus, t.out))
    = some (0, 0, 0#3, 20#8) := by decide

/-- S2: the store and the response -/
theorem test_refresh_store :
    (after (exec .refresh (block .doc4 5 2 store4 2#3 20#8))).map (fun t => (t.store, t.response))
    = some (store4, some .nothing) := by decide

/-- S7 -/
theorem test_getstatus :
    (after (exec .getstatus (block .doc4 4 0 full4 2#3 0#8))).map (fun t => (t.response, t.lastStatus, t.rsp.toNat))
    = some (some (.status 2#3), 2#3, 2) := by decide

/-- the query table: full across the counter wrap, the FULL status kept -/
theorem test_isfull :
    (after (exec .isfull (block .doc4 2 6 [] 2#3 0#8))).map (fun t => (t.response, t.lastStatus, t.rsp.toNat))
    = some (some (.flag true), 2#3, 1) := by decide

/-- the query table -/
theorem test_isempty :
    (after (exec .isempty (block .doc4 2 6 [] 2#3 0#8))).map (fun t => t.response) = some (some (.flag false)) := by
  decide

/-- the query table -/
theorem test_count :
    (after (exec .count (block .doc4 1 6 [] 0#3 0#8))).map (fun t => (t.response, t.rsp.toNat))
    = some (some (.count 3), 3) := by decide

/-- T4 -/
theorem test_peek : (after (exec .peek t5)).map (fun t => (t.response, t.out)) = some (some (.element 20#8), 10#8) := by
  decide

/-- T2: the sentinel, although slot 0 holds 9 -/
theorem test_peek_empty :
    (after (exec .peek (block .doc4 0 0 [(0, 9#8), (1, 9#8), (2, 9#8), (3, 9#8)] 0#3 0#8))).map (fun t => t.response)
    = some (some (.element 0#8)) := by decide

/-- T7: `tail` wraps from 7 to 0 -/
theorem test_get_wraps :
    (after (exec .get (block .doc4 0 7 [(0, 7#8), (3, 6#8)] 0#3 5#8))).map
      (fun t => (t.out, t.tail, t.lastStatus, t.store))
    = some (6#8, 0, 0#3, [(0, 7#8), (3, 6#8)]) := by decide

/-- T6 -/
theorem test_get_empty :
    (after (exec .get t6)).map (fun t => (t.out, t.tail, t.lastStatus, t.response))
    = some (50#8, 5, 1#3, some (.status 1#3)) := by decide

/-- T8: `head` wraps from 7 to 0 -/
theorem test_put_wraps :
    (after (exec (.put 0x22#8) (block .doc4 7 6 [(2, 17#8)] 0#3 0#8))).map (fun t => (t.head, t.store, t.occ))
    = some (0, [(2, 17#8), (3, 0x22#8)], 2) := by decide

/-- T12: full across the counter wrap -/
theorem test_put_full :
    (after (exec (.put 85#8) (block .doc4 2 6 [(0, 51#8), (1, 68#8), (2, 17#8), (3, 34#8)] 0#3 165#8))).map
      (fun t => (t.head, t.store, t.lastStatus, t.response))
    = some (2, [(0, 51#8), (1, 68#8), (2, 17#8), (3, 34#8)], 2#3, some (.status 2#3)) := by decide

/-- T11: zero is an ordinary element, and leaves no entry in the memory -/
theorem test_put_zero :
    (after (exec (.put 0#8) (block .doc4 4 1 full4 0#3 10#8))).map (fun t => (t.head, t.store))
    = some (5, [(1, 20#8), (2, 30#8), (3, 40#8)]) := by decide

/-- program P3 step 16: the third PUT overwrites the first element -/
theorem test_put_hazard :
    (after (exec (.put 204#8) p3)).map (fun t => (t.store, t.hazard, t.occ))
    = some ([(0, 204#8), (1, 187#8), (2, 165#8)], true, 3) := by decide

/-! ## Steps -/

/-- S10: reset wins over the presented PUT, which is not remembered -/
theorem test_reset_step :
    (after (step { (block .doc4 3 1 [(0, 1#8), (1, 2#8), (2, 3#8)] 0#3 1#8) with
        producerQ := [0x6FF#12], schedule := [⟨true, some .producer⟩] })).map
      (fun t => (t.head, t.store, t.out, t.producerQ))
    = some (0, [], 1#8, []) := by decide

/-- S8 -/
theorem test_idle_step :
    (after (step (block .doc4 3 1 [(0, 1#8)] 0#3 1#8))).map (fun t => (t.head, t.tail, t.store, t.rspValid))
    = some (3, 1, [(0, 1#8)], false) := by decide

/-- S9: a model refuses -/
theorem test_reserved_step :
    refusedOpcode (step ((block .doc4 3 1 [(0, 1#8)] 0#3 1#8).present .consumer 0x900#12)) = some 9#4 := by decide

/-- the first operation after reset, presented as a word of the opcode table -/
theorem test_fetch_word :
    (after (step (State.reset.withFetchWord 16 0x60A))).map (fun t => (t.head, t.store, t.response))
    = some (1, [(0, 10#8)], some (.status 0#3)) := by decide

/-! ## Witnesses: for each obligation with hypotheses, a case that meets them together -/

theorem witness_DecodeOfEncode : (Instr.put 255#8).wf = true := by decide

theorem witness_DataBitsIgnoredButByPut : (5#4 : Opcode) ≠ 6#4 ∧ decode ((5#4 : Opcode) ++ (0xA5#8 : Element)) = .ok .get := by
  decide

theorem witness_DecodedWordHasItsOpcode :
    decode 0x6FF#12 = .ok (.put 255#8) ∧ decode 0x900#12 = .error (.reservedOpcode 9#4) := by decide

theorem witness_OnlyLegalPairsAreConfigurations : legalConfig 1 1 = true := by decide

theorem witness_WrapSafeIsPowerOfTwo : Config.ref200.capacity = 200 ∧ Config.ref200.counterWidth = 8 := by decide

/-- the widest of the counter widths the statement gives figures for -/
theorem witness_WrapSafeIsPowerOfTwo_wide : legalConfig 16 200 = true ∧ legalConfig 32 200 = true ∧
    legalConfig 64 200 = true := by decide

theorem witness_CountersAdvanceByOneOnly : 6 < Config.doc4.modulus ∧ 6 ≠ Config.doc4.modulus - 1 ∧
    7 = Config.doc4.modulus - 1 ∧ (after (exec (.put 1#8) t6)).isSome = true := by decide

theorem witness_SlotsSucceedUpToTheCounterWrap : 6 < Config.odd3.modulus - 1 ∧ 5 < Config.odd3.modulus - 1 ∧
    Counter.idx .odd3 5 = Config.odd3.capacity - 1 := by decide

theorem witness_OccupancyIsTheWrappingDifference : t5.head < t5.cfg.modulus ∧ t5.tail < t5.cfg.modulus ∧
    t5.tail ≤ t5.head ∧ p3.head < p3.cfg.modulus ∧ p3.tail < p3.cfg.modulus ∧ p3.head < p3.tail := by decide

theorem witness_OccupancyIsTheWrappingDifference_counted : p3.countedBy ⟨8, 6⟩ :=
  ⟨by decide, by decide, by decide, by decide⟩

/-- an unreachable state with `occ() > CAPACITY` for the clause about one -/
theorem witness_EmptyAndFullAreDistinct : (block .doc4 3 6 [] 0#3 0#8).head < Config.doc4.modulus ∧
    (block .doc4 3 6 [] 0#3 0#8).tail < Config.doc4.modulus ∧ 4 < (block .doc4 3 6 [] 0#3 0#8).occ := by decide

theorem witness_CountAnswersOccupancy : t9.inRange = true ∧ t9.inv = true ∧ t9.isFull = true := by decide

theorem witness_IsfullAnswersWhetherPutIsRejected : t6.head = t6.tail ∧
    (block .doc4 3 6 [] 0#3 0#8).cfg.capacity < (block .doc4 3 6 [] 0#3 0#8).occ ∧
    (block .one 1 1 [] 0#3 0#8).inRange = true ∧ Config.one.capacity = 1 := by decide

theorem witness_IsemptyAnswersWhetherGetFails : t6.inRange = true ∧
    (after (exec .isempty t6)).map (fun t => t.rsp.toNat) = some 1 := by decide

theorem witness_PeekAnswersOldestElement : t5.inRange = true ∧ t5.head ≠ t5.tail := by decide

theorem witness_GetRemovesOldestElement : t5.inRange = true ∧ t5.head ≠ t5.tail ∧ t5.isFull = true := by decide

theorem witness_GetRemovesOldestElement_empty : t6.inRange = true ∧ t6.head = t6.tail := by decide

theorem witness_PutAppendsUnlessFull : p3.inRange = true ∧ p3.occ ≠ p3.cfg.capacity ∧ p3.occ ≤ p3.cfg.capacity ∧
    p3.hazard = false ∧ (after (exec (.put 204#8) p3)).map State.hazard = some true := by decide

theorem witness_PutAppendsUnlessFull_no_hazard : t6.inRange = true ∧ t6.occ < t6.cfg.capacity ∧
    (after (exec (.put 1#8) t6)).map State.hazard = some false := by decide

theorem witness_PutAppendsUnlessFull_one : (block .one 1 1 [] 0#3 0#8).inRange = true ∧
    (block .one 1 1 [] 0#3 0#8).occ ≠ (block .one 1 1 [] 0#3 0#8).cfg.capacity ∧ Config.one.capacity = 1 := by decide

theorem witness_PutAppendsUnlessFull_full : t9.occ = t9.cfg.capacity := by decide

theorem witness_FullBufferRejectsEveryPut : t9.occ = t9.cfg.capacity ∧ [51#8, 52#8] ≠ ([] : List Element) := by decide

theorem witness_GetsDrainTheContentsInOrder : t5.inRange = true ∧ 3 < t5.contents.length := by decide

theorem witness_PutGetPairsReturnTheElement : t6.inRange = true ∧ t6.head = t6.tail := by decide

theorem witness_PutsThenGetsKeepFifoOrder_wrapSafe : t6.inRange = true ∧ t6.head = t6.tail ∧
    [10#8, 20#8, 30#8, 40#8].length ≤ t6.cfg.capacity ∧ t6.cfg.WrapSafe := by decide

/-- the boundary of the second way out: `head + N = M` -/
theorem witness_PutsThenGetsKeepFifoOrder_below : (block .odd3 5 5 [] 0#3 0#8).inRange = true ∧
    (block .odd3 5 5 [] 0#3 0#8).head + [1#8, 2#8, 3#8].length ≤ Config.odd3.modulus ∧
    [1#8, 2#8, 3#8].length ≤ Config.odd3.capacity := by decide

/-- the boundary of the third way out: `N = R_WRAP` -/
theorem witness_PutsThenGetsKeepFifoOrder_few : (block .odd3 7 7 [] 0#3 0#8).inRange = true ∧
    [1#8, 2#8].length ≤ Config.odd3.rWrap ∧ [1#8, 2#8].length ≤ Config.odd3.capacity := by decide

theorem witness_GetstatusIsSticky : ∀ q ∈ [Instr.count, .peek, .isfull], q.isQuery = true := by decide

theorem witness_StatusFollowsTheOutcome : (after (exec .get t6)).isSome = true := by decide

theorem witness_RefreshAndInitCannotBeToldApart : t5.inRange = true := by decide

theorem witness_SharedStatusShowsTheLatestOutcome : t9.occ = t9.cfg.capacity ∧ t6.occ = 0 := by decide

theorem witness_EachOperationChangesOnlyItsState : (after (exec (.put 1#8) t9)).isSome = true ∧ t9.inRange = true ∧
    t9.occ = t9.cfg.capacity ∧ (after (exec .get t6)).isSome = true ∧ t6.occ = 0 := by decide

theorem witness_FailureWritesOnlyTheStatus :
    (after (exec .get t6)).map (fun t => t.response == some (.status (statusCode .ok))) = some false ∧
    (after (exec (.put 1#8) t9)).map (fun t => t.response == some (.status (statusCode .ok))) = some false := by decide

theorem witness_QueriesAreIdempotent : (∀ q ∈ [Instr.count, .peek, .getstatus], q.isQuery = true) ∧
    t5.inRange = true ∧ t5.head ≠ t5.tail := by decide

/-- A state in which the consumer's GET is presented. -/
def served : State := t5.present .consumer 0x500#12

theorem witness_StepPerformsThePresentedCommand : served.rstPin = false ∧ served.edge.grant = some .consumer ∧
    served.queue .consumer = [0x500#12] ∧ decode 0x500#12 = .ok .get := by decide

theorem witness_CallersCannotBeToldApart : decode 0x500#12 = .ok .get := by decide

/-- A state with reset asserted over a presented command. -/
def resetting : State := { t5 with producerQ := [0x6FF#12], schedule := [⟨true, some .producer⟩] }

theorem witness_ResetHasPriorityAndClears : resetting.rstPin = true ∧ resetting.cmdPin = some 0x6FF#12 := by decide

theorem witness_IdleStepsChangeNothing : t5.rstPin = false ∧ t5.cmdPin = none ∧
    ({ t5 with schedule := [⟨false, none⟩, ⟨false, none⟩, ⟨true, none⟩] } : State).schedule
      = List.replicate 2 ⟨false, none⟩ ++ [⟨true, none⟩] := by decide

/-- the least and the greatest reserved opcode -/
theorem witness_OnlyReservedOpcodesStopARun : refusedOpcode (step (t5.present .producer 0x900#12)) = some 9#4 ∧
    refusedOpcode (step (t5.present .producer 0xFFF#12)) = some 15#4 := by decide

theorem witness_EachAgentKeepsItsOrder : (after (step served)).isSome = true ∧ served.edge.grant = some .consumer := by
  decide

theorem witness_EveryInterleavingIsARun : t5.producerQ = [] ∧ t5.consumerQ = [] ∧ t5.supervisorQ = [] ∧
    t5.schedule = [] := by decide

theorem witness_CheckThenAct_producer : t6.inv = true ∧ t6.isFull = false ∧
    (∀ i ∈ [Instr.get, .count], mayIssue .consumer i = true) := by decide

theorem witness_CheckThenAct_consumer : t5.inv = true ∧ t5.isEmpty = false ∧
    (∀ i ∈ [Instr.put 1#8, .isfull], mayIssue .producer i = true) := by decide

/-- Producer and consumer have operations waiting and are served once the supervisor's words are used up. -/
def busy : State := { t5 with producerQ := [0x6FF#12], consumerQ := [0x500#12],
                              schedule := [⟨false, some .producer⟩, ⟨false, some .consumer⟩] }

/-- The supervisor's REFRESH is served next, with a PUT and a GET after it: quiescent by R165. -/
def refreshing : State := busy.present .supervisor 0x800#12

/-- A COUNT and then the REFRESH, both the supervisor's, and only then the PUT. -/
def counting : State := refreshing.present .supervisor 0x700#12

/-- R165: a PUT served before the REFRESH, or presented in the very step of a reset, and the buffer is not quiescent. -/
theorem test_quiescent_ends_with_the_refresh : refreshing.quiescent = true ∧
    (refreshing.present .producer 0x6FF#12).quiescent = false ∧ busy.quiescent = false ∧
    resetting.quiescent = false := by decide

theorem witness_QuiescentBufferServesOnlyTheSupervisor :
    (refreshing.quiescent = true ∧ refreshing.rewinds = true ∧
      (after (step refreshing)).map (fun t => t.rspValid) = some true) ∧
    (counting.quiescent = true ∧ counting.rewinds = false ∧
      (after (step counting)).map (fun t => t.rspValid) = some true) ∧
    (t5.producerQ = [] ∧ t5.consumerQ = [] ∧ t5.quiescent = true ∧
      (after (step t5)).map (fun t => (t.response, t5.rstPin)) = some (none, false)) ∧
    decode 0x000#12 = .ok .init ∧ decode 0x800#12 = .ok .refresh := by decide

/-- a window of one step: the COUNT, which leaves the REFRESH to be served -/
theorem witness_QuiescentWindowKeepsTheBlock : counting.quiescent = true ∧
    (∀ c ∈ counting.supervisorQ, ∀ i, decode c = .ok i → mayIssue .supervisor i = true) ∧
    (after (core.run 1 counting)).map State.rewinds = some true ∧
    (∀ (m : Nat) (u : State), m < 1 → core.run m counting = .next u → u.rewinds = false) := by
  refine ⟨by decide, ?_, by decide, ?_⟩
  · intro c hc i hi
    obtain rfl | rfl : c = 0x700#12 ∨ c = 0x800#12 := by simpa [counting, refreshing, State.present, State.queue,
      State.setQueue, busy, t5, block, State.initial] using hc
    · obtain rfl := Except.ok.inj ((show decode 0x700#12 = .ok .count by decide).symm.trans hi)
      rfl
    · obtain rfl := Except.ok.inj ((show decode 0x800#12 = .ok .refresh by decide).symm.trans hi)
      rfl
  · intro m u hm hu
    obtain rfl : m = 0 := by omega
    injection hu with hu
    subst hu
    decide

/-- a REFRESH on a full buffer, and a reset over a presented PUT -/
theorem witness_UncoordinatedInitHasADefinedResult :
    (t5.present .supervisor 0x800#12).rewinds = true ∧ resetting.rewinds = true := by decide

theorem witness_EveryStepKeepsTheRanges : served.inRange = true ∧ (after (step served)).isSome = true := by decide

theorem witness_EveryStepKeepsTheInvariant : served.inv = true ∧ (after (step served)).isSome = true := by decide

theorem witness_OccupancyCountsOutstandingElements : p3.countedBy ⟨8, 6⟩ ∧
    (after (exec (.put 204#8) p3)).isSome = true := ⟨⟨by decide, by decide, by decide, by decide⟩, by decide⟩

theorem witness_HazardIsSharedSlot : p3'.inRange = true ∧ p3'.occ ≤ p3'.cfg.capacity ∧ p3'.hazard = true ∧
    t5.inRange = true ∧ t5.occ ≤ t5.cfg.capacity ∧ t5.cfg.WrapSafe := by decide

theorem witness_PutAtTheCounterWrapOverwrites : p3.inRange = true ∧ p3.cfg.rWrap ≠ 0 ∧ p3.head = 0 ∧ p3.tail ≠ 0 ∧
    p3.cfg.rWrap ≤ p3.occ ∧ p3.occ < p3.cfg.capacity := by decide

theorem witness_EachOperationRefinesTheQueue : t6.inv = true ∧
    (after (exec (.put 1#8) t6)).map State.hazard = some false := by decide

theorem witness_WrapSafeBlockIsAFifo : t5.inv = true ∧ t5.cfg.WrapSafe := by decide

end Sys2Proof.Tests
end

