-- ==== Sys2Proof/Proofs/Scope.lean ====
section
/-! PROOFS. The configuration: which pairs of numbers are one (spec/00_scope.md R7, R169), and the three forms of
`WrapSafe` (R8). -/

namespace Sys2Proof

/-! ## Which pairs of numbers are a configuration -/

/-- The check in the words of R7, without the truncated subtraction of the model. -/
theorem legalConfig_iff {cw cap : Nat} : legalConfig cw cap = true ↔ 1 ≤ cap ∧ cap < 2 ^ cw := by
  have hpos : 0 < 2 ^ cw := Nat.two_pow_pos cw
  simp only [legalConfig, Bool.and_eq_true, decide_eq_true_eq]
  omega

theorem legalConfig_iff_exists_config {cw cap : Nat} :
    legalConfig cw cap = true ↔ ∃ c : Config, c.counterWidth = cw ∧ c.capacity = cap := by
  constructor
  · intro h
    obtain ⟨hpos, hlt⟩ := legalConfig_iff.mp h
    exact ⟨⟨cw, cap, hpos, Nat.le_sub_one_of_lt hlt⟩, rfl, rfl⟩
  · rintro ⟨c, rfl, rfl⟩
    exact legalConfig_iff.mpr ⟨c.capacity_pos, Machine.CounterLaws.capacity_lt_modulus c⟩

theorem Config.isSome_ofNats (cw cap : Nat) : (Config.ofNats cw cap).isSome = legalConfig cw cap := by
  unfold Config.ofNats legalConfig
  split
  case isTrue h => simp [h]
  case isFalse h => simpa using h

/-- With `CW = 0` the modulus is 1, which leaves no capacity. -/
theorem counterWidth_pos_of_legalConfig {cw cap : Nat} (h : legalConfig cw cap = true) : 1 ≤ cw := by
  obtain ⟨hpos, hlt⟩ := legalConfig_iff.mp h
  have hone : 2 ^ 0 < 2 ^ cw := hpos.trans_lt hlt
  exact (Nat.pow_lt_pow_iff_right Nat.one_lt_two).mp hone

/-- Settles O7: every clause comes from the check in the form of R7. -/
theorem onlyLegalPairsAreConfigurations : Obligations.OnlyLegalPairsAreConfigurations := fun cw cap =>
  ⟨legalConfig_iff_exists_config, legalConfig_iff, Config.isSome_ofNats cw cap, counterWidth_pos_of_legalConfig⟩

/-! ## The three forms of `WrapSafe` -/

namespace Config

theorem wrapSafe_iff_capacity_dvd (c : Config) : c.WrapSafe ↔ c.capacity ∣ 2 ^ c.counterWidth :=
  (Nat.dvd_iff_mod_eq_zero).symm

/-- A divisor of `2^CW` is some `2^k` with `k <= CW`; `CAPACITY < M` excludes `k = CW`. -/
theorem wrapSafe_iff_capacity_eq_two_pow (c : Config) :
    c.WrapSafe ↔ ∃ k, c.capacity = 2 ^ k ∧ c.capacity ≤ 2 ^ (c.counterWidth - 1) := by
  rw [wrapSafe_iff_capacity_dvd, Nat.dvd_prime_pow Nat.prime_two]
  constructor
  · rintro ⟨k, -, hcap⟩
    have hlt : 2 ^ k < 2 ^ c.counterWidth := hcap ▸ Machine.CounterLaws.capacity_lt_modulus c
    have hk : k < c.counterWidth := (Nat.pow_lt_pow_iff_right Nat.one_lt_two).mp hlt
    exact ⟨k, hcap, hcap ▸ Nat.pow_le_pow_right Nat.two_pos (Nat.le_sub_one_of_lt hk)⟩
  · rintro ⟨k, hcap, hle⟩
    have hk : k ≤ c.counterWidth - 1 := (Nat.pow_le_pow_iff_right Nat.one_lt_two).mp (hcap ▸ hle)
    exact ⟨k, hk.trans (Nat.sub_le _ _), hcap⟩

/-- The prime 5 divides 200 and no power of two. -/
theorem not_wrapSafe_of_capacity_eq_200 {c : Config} (hcap : c.capacity = 200) : ¬ c.WrapSafe := by
  rw [wrapSafe_iff_capacity_dvd, hcap]
  intro h
  have h5 : 5 ∣ 2 ^ c.counterWidth := (by decide : 5 ∣ 200).trans h
  exact absurd (Nat.prime_five.dvd_of_dvd_pow h5) (by decide)

theorem rWrap_of_eq {c : Config} {cw cap : Nat} (hcap : c.capacity = cap) (hcw : c.counterWidth = cw) :
    c.rWrap = 2 ^ cw % cap := by
  subst hcap hcw
  rfl

end Config

/-- Settles O6, by the divisors of a power of two; the default configuration `CFG_REF200` is not `WrapSafe`. -/
theorem wrapSafeIsPowerOfTwo : Obligations.WrapSafeIsPowerOfTwo := by
  refine ⟨fun c => ⟨rfl, rfl, Iff.rfl, c.wrapSafe_iff_capacity_dvd, c.wrapSafe_iff_capacity_eq_two_pow⟩,
    fun c hcap => ⟨Config.not_wrapSafe_of_capacity_eq_200 hcap, ?_, ?_, ?_, ?_⟩,
    Config.ref200, Config.not_wrapSafe_of_capacity_eq_200 rfl⟩
  all_goals exact fun hcw => Config.rWrap_of_eq hcap hcw

end Sys2Proof
end

