-- ==== Sys2Proof/Proofs/State.lean ====
section
/-! PROOFS. The state of spec/10_state.md: what one operation can do to it, which part of it each operation leaves alone
(R32), the ranges and the invariant that every step keeps (R22, R23, R29, R33, R40), the state after reset (R30), and the
status that both contexts share (R167). -/

namespace Sys2Proof.Machine

open StateLaws CounterLaws MemoryLaws OpsLaws

variable {s t : State} {i : Instr}

/-! ## What an operation can do -/

/-- A query only answers. -/
theorem exists_respond_of_exec_query (h : exec i s = .next t) (hq : i.isQuery = true) : ∃ r, t = s.respond r := by
  cases i with
  | peek => rw [exec, execPeek_eq] at h; cases h; exact ⟨_, rfl⟩
  | count | isfull | isempty | getstatus => cases h; exact ⟨_, rfl⟩
  | init | get | put | refresh => cases hq

theorem exec_get_of_occ_eq_zero (h : s.occ = 0) : exec .get s = .next (s.report .empty) := by
  rw [exec, execGet_eq, if_pos ((isEmpty_eq_true_iff s).mpr h)]

theorem exec_get_of_occ_ne_zero (h : s.occ ≠ 0) : exec .get s =
    .next (((s.setOut (Memory.read s.store s.readSlot)).advanceTail).report .ok) := by
  rw [exec, execGet_eq, if_neg (mt (isEmpty_eq_true_iff s).mp h)]

theorem exec_put_of_occ_eq_capacity (v : Element) (h : s.occ = s.cfg.capacity) :
    exec (.put v) s = .next (s.report .full) := by
  rw [exec, execPut_eq, if_pos ((isFull_eq_true_iff s).mpr h)]

theorem exec_put_of_occ_ne_capacity (v : Element) (h : s.occ ≠ s.cfg.capacity) : exec (.put v) s =
    .next ((({ s with store := Memory.write s.store s.writeSlot v } : State).advanceHead).report .ok) := by
  rw [exec, execPut_eq, if_neg (mt (isFull_eq_true_iff s).mp h)]

/-- The seven things an operation can do: a query answers, INIT and REFRESH rewind, and GET and PUT fail or succeed, each
under its condition on the pre-state. -/
inductive Performs (s : State) : Instr → State → Prop
  | query {q : Instr} (hq : q.isQuery = true) (r : Result) : Performs s q (s.respond r)
  | init : Performs s .init (s.initialise.respond .nothing)
  | refresh : Performs s .refresh (s.rewind.respond .nothing)
  | getEmpty (h : s.occ = 0) : Performs s .get (s.report .empty)
  | getOk (h : s.occ ≠ 0) :
      Performs s .get (((s.setOut (Memory.read s.store s.readSlot)).advanceTail).report .ok)
  | putFull (v : Element) (h : s.occ = s.cfg.capacity) : Performs s (.put v) (s.report .full)
  | putOk (v : Element) (h : s.occ ≠ s.cfg.capacity) : Performs s (.put v)
      ((({ s with store := Memory.write s.store s.writeSlot v } : State).advanceHead).report .ok)

/-- `exec` does nothing but those seven things. -/
theorem performs_of_exec (h : exec i s = .next t) : Performs s i t := by
  cases i with
  | init => cases h; exact .init
  | refresh => cases h; exact .refresh
  | get =>
    by_cases hocc : s.occ = 0
    · rw [exec_get_of_occ_eq_zero hocc] at h; cases h; exact .getEmpty hocc
    · rw [exec_get_of_occ_ne_zero hocc] at h; cases h; exact .getOk hocc
  | put v =>
    by_cases hocc : s.occ = s.cfg.capacity
    · rw [exec_put_of_occ_eq_capacity v hocc] at h; cases h; exact .putFull v hocc
    · rw [exec_put_of_occ_ne_capacity v hocc] at h; cases h; exact .putOk v hocc
  | count | isfull | isempty | peek | getstatus =>
    obtain ⟨r, rfl⟩ := exists_respond_of_exec_query h rfl
    exact .query rfl r

/-! ## The frame of each operation -/

/-- No operation writes the configuration or what the agents have still to issue. -/
theorem exec_sameSurroundings (h : exec i s = .next t) : s.sameSurroundings t := by
  cases performs_of_exec h <;> exact ⟨rfl, rfl, rfl, rfl, rfl⟩

theorem exec_query_sameBlock (hq : i.isQuery = true) (h : exec i s = .next t) : s.sameBlock t := by
  obtain ⟨r, rfl⟩ := exists_respond_of_exec_query h hq
  exact ⟨fun _ => rfl, rfl, rfl, rfl, rfl, rfl⟩

theorem exec_refresh_frame (h : exec .refresh s = .next t) : t.store = s.store ∧ t.out = s.out := by
  cases h
  exact ⟨rfl, rfl⟩

theorem exec_init_frame (h : exec .init s = .next t) : t.out = s.out := by
  cases h
  rfl

theorem exec_get_frame (h : exec .get s = .next t) :
    t.store = s.store ∧ t.head = s.head ∧ (s.occ = 0 → t.out = s.out ∧ t.tail = s.tail) := by
  cases performs_of_exec h with
  | query hq => cases hq
  | getEmpty => exact ⟨rfl, rfl, fun _ => ⟨rfl, rfl⟩⟩
  | getOk hocc => exact ⟨rfl, rfl, fun h0 => absurd h0 hocc⟩

/-- The last clause needs a canonical memory, in which a write reaches one address only. -/
theorem exec_put_frame {v : Element} (h : exec (.put v) s = .next t) : t.tail = s.tail ∧ t.out = s.out ∧
    (s.occ = s.cfg.capacity → t.store = s.store ∧ t.head = s.head) ∧
    (s.inRange = true → ∀ a, a ≠ s.head % s.cfg.capacity → Memory.read t.store a = Memory.read s.store a) := by
  cases performs_of_exec h with
  | query hq => cases hq
  | putFull => exact ⟨rfl, rfl, fun _ => ⟨rfl, rfl⟩, fun _ _ _ => rfl⟩
  | putOk _ hocc =>
    refine ⟨rfl, rfl, fun hfull => absurd hfull hocc, fun hr a ha => ?_⟩
    obtain ⟨-, -, hwf, -⟩ := inRange_iff.mp hr
    exact read_write_of_ne hwf v ha

/-- Settles O29: the frame of each operation. -/
theorem eachOperationChangesOnlyItsState : Obligations.EachOperationChangesOnlyItsState := by
  intro i s t h
  refine ⟨exec_sameSurroundings h, fun hq => exec_query_sameBlock hq h, ?_, ?_, ?_, ?_⟩
  · rintro rfl; exact exec_refresh_frame h
  · rintro rfl; exact exec_init_frame h
  · rintro rfl; exact exec_get_frame h
  · rintro ⟨v, rfl⟩; exact exec_put_frame h

/-! ## The ranges: which updates of the state keep them -/

@[simp] theorem inRange_sampled (s : State) : s.sampled.inRange = s.inRange := by simp [State.inRange]

/-- INIT and reset read no state: whatever the registers held, they are in range afterwards. -/
theorem inRange_initialise (s : State) : s.initialise.inRange = true := by simp [inRange_iff, modulus_pos]

theorem inRange_rewind (h : s.inRange = true) : s.rewind.inRange = true := by
  obtain ⟨-, -, hwf, hbelow⟩ := inRange_iff.mp h
  exact inRange_iff.mpr ⟨modulus_pos _, modulus_pos _, hwf, hbelow⟩

theorem inRange_advanceTail (h : s.inRange = true) : s.advanceTail.inRange = true := by
  obtain ⟨hhead, -, hwf, hbelow⟩ := inRange_iff.mp h
  exact inRange_iff.mpr ⟨hhead, inc_lt _ _, hwf, hbelow⟩

theorem inRange_advanceHead (h : s.inRange = true) : s.advanceHead.inRange = true := by
  obtain ⟨-, htail, hwf, hbelow⟩ := inRange_iff.mp h
  exact inRange_iff.mpr ⟨inc_lt _ _, htail, hwf, hbelow⟩

/-- The write slot is always inside the address space (R43). -/
theorem inRange_write_writeSlot (v : Element) (h : s.inRange = true) :
    ({ s with store := Memory.write s.store s.writeSlot v } : State).inRange = true := by
  obtain ⟨hhead, htail, hwf, hbelow⟩ := inRange_iff.mp h
  exact inRange_iff.mpr ⟨hhead, htail, wf_write _ v hwf, below_write v hbelow (writeSlot_lt s)⟩

theorem exec_keeps_inRange (h : exec i s = .next t) (hr : s.inRange = true) : t.inRange = true := by
  cases performs_of_exec h with
  | query | getEmpty | putFull => exact hr
  | init => exact inRange_initialise s
  | refresh => exact inRange_rewind (s := s) hr
  | getOk => exact inRange_advanceTail hr
  | putOk v => exact inRange_advanceHead (inRange_write_writeSlot v hr)

/-! ## What every step keeps -/

/-- A property is kept by every step when sampling the edge, a reset, an idle step and every operation keep it. -/
theorem step_keeps {P : State → Prop} (sampled : ∀ u, P u → P u.sampled) (reset : ∀ u, P u → P u.hardReset)
    (idle : ∀ u, P u → P u.quiet) (perform : ∀ i u w, exec i u = .next w → P u → P w)
    (h : step s = .next t) (hs : P s) : P t := by
  obtain ⟨-, rfl⟩ | ⟨-, rfl⟩ | ⟨i, -, hi⟩ := step_eq_next h
  · exact reset _ (sampled s hs)
  · exact idle _ (sampled s hs)
  · exact perform i _ t hi (sampled s hs)

theorem step_cfg (h : step s = .next t) : t.cfg = s.cfg :=
  step_keeps (P := fun u => u.cfg = s.cfg) (fun u hu => (cfg_sampled u).trans hu) (fun _ hu => hu) (fun _ hu => hu)
    (fun _ _ _ hi hu => (exec_sameSurroundings hi).1.trans hu) h rfl

theorem step_keeps_inRange (h : step s = .next t) (hr : s.inRange = true) : t.inRange = true :=
  step_keeps (P := fun u => u.inRange = true) (fun u hu => (inRange_sampled u).trans hu)
    (fun u _ => inRange_initialise u) (fun _ hu => hu) (fun _ _ _ => exec_keeps_inRange) h hr

/-- Settles O42, by the operations and the reset and idle steps one by one. -/
theorem everyStepKeepsTheRanges : Obligations.EveryStepKeepsTheRanges :=
  fun _ _ h => ⟨step_cfg h, step_keeps_inRange h⟩

/-! ## The invariant: occupancy and status -/

@[simp] theorem occ_sampled (s : State) : s.sampled.occ = s.occ := by simp [State.occ]
@[simp] theorem occ_report (s : State) (st : Status) : (s.report st).occ = s.occ := rfl
@[simp] theorem occ_rewind (s : State) : s.rewind.occ = 0 := by simp [State.occ]

theorem occ_advanceTail (hr : s.inRange = true) (h : s.occ ≠ 0) : s.advanceTail.occ = s.occ - 1 := by
  obtain ⟨hhead, htail, -, -⟩ := inRange_iff.mp hr
  exact occ_inc_tail rfl rfl rfl hhead htail h

/-- `CAPACITY < M`: below the capacity the count cannot wrap. -/
theorem occ_advanceHead (hr : s.inRange = true) (h : s.occ < s.cfg.capacity) : s.advanceHead.occ = s.occ + 1 := by
  obtain ⟨hhead, htail, -, -⟩ := inRange_iff.mp hr
  exact occ_inc_head rfl rfl rfl hhead htail ((Nat.succ_le_of_lt h).trans_lt (capacity_lt_modulus s.cfg))

/-- The three codes that the block produces (R66). -/
theorem lastStatus_toNat_le_two (h : s.inv = true) : s.lastStatus.toNat ≤ 2 := by
  obtain ⟨-, -, hok | hempty | hfull⟩ := inv_iff.mp h
  · rw [hok]; decide
  · rw [hempty]; decide
  · rw [hfull]; decide

theorem inv_sampled (h : s.inv = true) : s.sampled.inv = true := by
  simpa [inv_iff] using inv_iff.mp h

/-- A rewound block in range meets the invariant, whatever its counters and status were. -/
theorem inv_rewind (h : s.inRange = true) : s.rewind.inv = true :=
  inv_iff.mpr ⟨inRange_rewind h, (occ_rewind s).trans_le (Nat.zero_le _), .inl rfl⟩

/-- INIT and reset establish the invariant from any state. -/
theorem inv_initialise (s : State) : s.initialise.inv = true :=
  inv_iff.mpr ⟨inRange_initialise s, (occ_rewind s).trans_le (Nat.zero_le _), .inl rfl⟩

/-- A successful GET leaves one element less. -/
theorem inv_getOk (hr : s.inRange = true) (hle : s.occ ≤ s.cfg.capacity) (h : s.occ ≠ 0) (v : Element) :
    ((s.setOut v).advanceTail.report .ok).inv = true := by
  have hocc : (s.setOut v).advanceTail.occ = s.occ - 1 := occ_advanceTail hr h
  refine inv_iff.mpr ⟨inRange_advanceTail hr, ?_, .inl rfl⟩
  exact hocc.trans_le ((Nat.sub_le _ _).trans hle)

/-- A successful PUT leaves one element more, which still fits: the buffer was not full. -/
theorem inv_putOk (hr : s.inRange = true) (hle : s.occ ≤ s.cfg.capacity) (h : s.occ ≠ s.cfg.capacity) (v : Element) :
    ((({ s with store := Memory.write s.store s.writeSlot v } : State).advanceHead).report .ok).inv = true := by
  have hlt : s.occ < s.cfg.capacity := lt_of_le_of_ne hle h
  have hw := inRange_write_writeSlot v hr
  exact inv_iff.mpr ⟨inRange_advanceHead hw, (occ_advanceHead hw hlt).trans_le hlt, .inl rfl⟩

theorem exec_keeps_inv (h : exec i s = .next t) (hinv : s.inv = true) : t.inv = true := by
  obtain ⟨hr, hle, -⟩ := inv_iff.mp hinv
  cases performs_of_exec h with
  | query => exact hinv
  | init => exact inv_initialise s
  | refresh => exact inv_rewind (s := s) hr
  | getEmpty => exact inv_iff.mpr ⟨hr, hle, .inr (.inl rfl)⟩
  | putFull => exact inv_iff.mpr ⟨hr, hle, .inr (.inr rfl)⟩
  | getOk hocc => exact inv_getOk hr hle hocc _
  | putOk v hocc => exact inv_putOk hr hle hocc v

theorem step_keeps_inv (h : step s = .next t) (hinv : s.inv = true) : t.inv = true :=
  step_keeps (P := fun u => u.inv = true) (fun _ => inv_sampled) (fun u _ => inv_initialise u) (fun _ hu => hu)
    (fun _ _ _ => exec_keeps_inv) h hinv

/-- Settles O43: the invariant is inductive, and the two bounds are read off it. -/
theorem everyStepKeepsTheInvariant : Obligations.EveryStepKeepsTheInvariant := by
  intro s t hinv h
  have ht : t.inv = true := step_keeps_inv h hinv
  obtain ⟨-, hle, -⟩ := inv_iff.mp ht
  exact ⟨ht, hle, lastStatus_toNat_le_two ht⟩

/-! ## The state after reset -/

theorem hardReset_initial (c : Config) (out0 : Element) :
    (State.initial c out0).hardReset = State.initial c out0 := rfl

/-- Settles O41: the initial state is what a reset makes of itself, so it has what every reset establishes. -/
theorem resetStateMeetsTheInvariant : Obligations.ResetStateMeetsTheInvariant := by
  refine ⟨fun c out0 => ?_, Config.ref200, 0#8, rfl⟩
  have hocc : (State.initial c out0).occ = 0 := occ_rewind (State.initial c out0)
  have hfull : (State.initial c out0).isFull = false := by
    rw [← Bool.not_eq_true, isFull_eq_true_iff, hocc]
    exact Nat.ne_of_lt c.capacity_pos
  exact ⟨inv_initialise (State.initial c out0), rfl, rfl, read_nil, rfl, hocc, (isEmpty_eq_true_iff _).mpr hocc, hfull,
    rfl, hardReset_initial c out0⟩

/-! ## The shared status -/

/-- Settles O27: a full buffer is not empty and an empty one not full, so the second operation succeeds; GETSTATUS
answers its code, and the first caller's failure is gone. -/
theorem sharedStatusShowsTheLatestOutcome : Obligations.SharedStatusShowsTheLatestOutcome := by
  constructor
  · intro v s hfull
    have hget : (s.report .full).occ ≠ 0 := by
      rw [occ_report, hfull]
      exact Nat.ne_of_gt s.cfg.capacity_pos
    rw [performAll_cons (exec_put_of_occ_eq_capacity v hfull), performAll_cons (exec_get_of_occ_ne_zero hget)]
    exact ⟨_, rfl, by simp⟩
  · intro v s hempty
    have hput : (s.report .empty).occ ≠ (s.report .empty).cfg.capacity := by
      rw [occ_report, hempty]
      exact Nat.ne_of_lt s.cfg.capacity_pos
    rw [performAll_cons (exec_get_of_occ_eq_zero hempty), performAll_cons (exec_put_of_occ_ne_capacity v hput)]
    exact ⟨_, rfl, by simp⟩

end Sys2Proof.Machine
end

