-- ==== Sys2Proof/Proofs/Memory.lean ====
section
/-! PROOFS. The memory as its agents see it (spec/20_memory.md): queries change nothing (R45), each agent's operations
are taken in its order and every order of them is a run (R47, R53), check then act is safe for one producer and one
consumer (R152), put and get pairs (R106), and the block as a first-in first-out queue (R52, R91). -/

namespace Sys2Proof.Machine

open StateLaws CounterLaws MemoryLaws OpsLaws

variable {s t : State} {i : Instr}

/-! ## What every operation gives, and sequences of operations -/

theorem exists_exec_eq_next (i : Instr) (s : State) : ∃ t, exec i s = .next t := by
  cases i with
  | peek => exact ⟨_, execPeek_eq s⟩
  | get => exact ⟨_, execGet_eq s⟩
  | put v => exact ⟨_, execPut_eq v s⟩
  | init | refresh | count | isfull | isempty | getstatus => exact ⟨_, rfl⟩

theorem exec_cfg (h : exec i s = .next t) : t.cfg = s.cfg := by
  obtain ⟨hcfg, -⟩ := exec_sameSurroundings h
  exact hcfg

/-- The run's responses grow by the response of the operation. -/
theorem exec_responses (h : exec i s = .next t) : t.responses = s.responses ++ t.response.toList := by
  cases performs_of_exec h <;> rfl

theorem occ_getOk (hr : s.inRange = true) (h : s.occ ≠ 0) (v : Element) :
    ((s.setOut v).advanceTail.report .ok).occ = s.occ - 1 := occ_advanceTail hr h

theorem occ_putOk (hr : s.inRange = true) (h : s.occ < s.cfg.capacity) (v : Element) :
    ((({ s with store := Memory.write s.store s.writeSlot v } : State).advanceHead).report .ok).occ = s.occ + 1 :=
  occ_advanceHead (inRange_write_writeSlot v hr) h

/-- A property that each of the operations keeps holds after all of them. -/
theorem exists_performAll_of_keeps {P : State → Prop} : ∀ {ops : List Instr} {s : State},
    (∀ i ∈ ops, ∀ u w, exec i u = .next w → P u → P w) → P s → ∃ t, performAll ops s = .next t ∧ P t
  | [], s, _, hs => ⟨s, rfl, hs⟩
  | i :: ops, s, hkeep, hs => by
    obtain ⟨u, hu⟩ := exists_exec_eq_next i s
    obtain ⟨hi, hops⟩ := List.forall_mem_cons.mp hkeep
    rw [performAll_cons hu]
    exact exists_performAll_of_keeps hops (hi s u hu hs)

/-! ## What a query answers -/

/-- The answer of a query, read off the block; the other four operations are given none. -/
def State.queryAnswer (s : State) : Instr → Result
  | .count => .count s.occ
  | .isfull => .flag s.isFull
  | .isempty => .flag s.isEmpty
  | .peek => .element (if s.isEmpty then 0#8 else Memory.read s.store s.readSlot)
  | .getstatus => .status s.lastStatus
  | .init | .refresh | .get | .put _ => .nothing

theorem exec_of_isQuery (hq : i.isQuery = true) : exec i s = .next (s.respond (s.queryAnswer i)) := by
  cases i with
  | peek => exact execPeek_eq s
  | count | isfull | isempty | getstatus => rfl
  | init | refresh | get | put => cases hq

/-- The answer depends on the block and its configuration alone. -/
theorem queryAnswer_congr (hc : t.cfg = s.cfg) (hb : s.sameBlock t) (i : Instr) :
    t.queryAnswer i = s.queryAnswer i := by
  obtain ⟨-, hstore, hhead, htail, hstatus, -⟩ := hb
  have hocc : t.occ = s.occ := occ_congr hc hhead htail
  have hempty : t.isEmpty = s.isEmpty := congrArg (· == 0) hocc
  have hfull : t.isFull = s.isFull := by rw [State.isFull, State.isFull, hocc, hc]
  have hslot : t.readSlot = s.readSlot := by rw [State.readSlot, State.readSlot, hc, htail]
  cases i <;> simp only [State.queryAnswer, hocc, hempty, hfull, hslot, hstore, hstatus]

/-! ## Queries are idempotent, GET is not -/

theorem performAll_queries {qs : List Instr} (s : State) (hqs : ∀ q ∈ qs, q.isQuery = true) :
    ∃ t, performAll qs s = .next t ∧ s.sameBlock t ∧ s.sameSurroundings t := by
  refine exists_performAll_of_keeps (P := fun u => s.sameBlock u ∧ s.sameSurroundings u) (fun q hq u w hw hu => ?_)
    ⟨⟨fun _ => rfl, rfl, rfl, rfl, rfl, rfl⟩, rfl, rfl, rfl, rfl, rfl⟩
  obtain ⟨r, rfl⟩ := exists_respond_of_exec_query hw (hqs q hq)
  exact hu

theorem occ_lt_of_exec_get (h : exec .get s = .next t) (hr : s.inRange = true) (hocc : s.occ ≠ 0) :
    t.occ < s.occ := by
  rw [exec_get_of_occ_ne_zero hocc] at h
  cases h
  rw [occ_getOk hr hocc]
  omega

/-- Settles O31: a query only answers, and what it answers is a function of the block; a GET lowers the count, so it has
moved `tail`. -/
theorem queriesAreIdempotent : Obligations.QueriesAreIdempotent := by
  constructor
  · intro qs s hqs
    obtain ⟨t, ht, hb, hcfg, hqueues⟩ := performAll_queries s hqs
    refine ⟨t, ht, hb, ⟨hcfg, hqueues⟩, fun q hq => ⟨_, _, exec_of_isQuery hq, exec_of_isQuery hq, ?_⟩⟩
    rw [response_respond, response_respond, queryAnswer_congr hcfg hb]
  · intro s hr hne
    obtain ⟨hhead, htail, -, -⟩ := inRange_iff.mp hr
    obtain ⟨t, ht⟩ := exists_exec_eq_next .get s
    have hlt : t.occ < s.occ := occ_lt_of_exec_get ht hr (mt (occ_eq_zero_iff hhead htail).mp hne)
    obtain ⟨-, hsame, -⟩ := exec_get_frame ht
    exact ⟨t, ht, fun heq => hlt.ne (occ_congr (exec_cfg ht) hsame heq), hlt⟩

/-! ## Each agent keeps its order -/

theorem queue_congr (h : s.sameSurroundings t) (a : Agent) : t.queue a = s.queue a := by
  obtain ⟨-, hp, hc, hv, -⟩ := h
  cases a with
  | producer => exact hp
  | consumer => exact hc
  | supervisor => exact hv

/-- What a step takes of the agents' operations, it takes when it samples the edge. -/
theorem step_queue (h : step s = .next t) (a : Agent) : t.queue a = s.sampled.queue a := by
  apply queue_congr
  obtain ⟨-, rfl⟩ | ⟨-, rfl⟩ | ⟨i, -, hi⟩ := step_eq_next h
  · exact ⟨rfl, rfl, rfl, rfl, rfl⟩
  · exact ⟨rfl, rfl, rfl, rfl, rfl⟩
  · exact exec_sameSurroundings hi

/-- Settles O37, by what sampling the edge leaves of each queue. -/
theorem eachAgentKeepsItsOrder : Obligations.EachAgentKeepsItsOrder := by
  intro s t a h
  rw [step_queue h, queue_sampled]
  split
  · cases s.queue a <;> rfl
  · rfl

/-! ## Every interleaving is a run -/

theorem decode_encode (i : Instr) : decode (encode i) = .ok i := by
  obtain ⟨hop, hdata⟩ := Laws.CanonicalWord.fields_encode i
  unfold decode
  rw [hop, hdata]
  cases i <;> rfl

/-- No operation reads what the agents have still to issue. -/
theorem exec_withListing (l : List Line) (h : exec i s = .next t) :
    exec i (s.withListing l) = .next (t.withListing l) := by
  cases performs_of_exec h with
  | query hq r =>
    rw [exec_of_isQuery hq] at h ⊢
    injection h with h
    rw [← h]
    cases i <;> rfl
  | init | refresh => rfl
  | getEmpty hocc => exact exec_get_of_occ_eq_zero (s := s.withListing l) hocc
  | getOk hocc => exact exec_get_of_occ_ne_zero (s := s.withListing l) hocc
  | putFull v hocc => exact exec_put_of_occ_eq_capacity (s := s.withListing l) v hocc
  | putOk v hocc => exact exec_put_of_occ_ne_capacity (s := s.withListing l) v hocc

theorem step_withListing_reset (s : State) (rest : List Line) :
    step (s.withListing (.reset :: rest)) = .next (s.hardReset.withListing rest) := rfl

/-- The line's agent has the line's word in front, and presents it. -/
theorem step_withListing_op (s : State) (a : Agent) (i : Instr) (rest : List Line) :
    step (s.withListing (.op a i :: rest)) = exec i (s.withListing rest) := by
  have hcmd : (s.withListing (.op a i :: rest)).cmdPin = some (encode i) := by cases a <;> rfl
  have hsampled : (s.withListing (.op a i :: rest)).sampled = s.withListing rest := by cases a <;> rfl
  have hact : (s.withListing (.op a i :: rest)).action = .perform i := by
    rw [action_of_cmd rfl hcmd, decode_encode]
  rw [step, hact, hsampled]

theorem performLines_op_cons {a : Agent} {rest : List Line} (h : exec i s = .next t) :
    performLines (.op a i :: rest) s = performLines rest t := by
  simp only [performLines, h]

theorem core_run_withListing : ∀ (lines : List Line) (s : State),
    core.run lines.length (s.withListing lines) = performLines lines (s.withListing [])
  | [], s => rfl
  | .reset :: rest, s =>
    (core_run_succ (step_withListing_reset s rest)).trans (core_run_withListing rest s.hardReset)
  | .op a i :: rest, s => by
    obtain ⟨t, ht⟩ := exists_exec_eq_next i s
    have hstep := (step_withListing_op s a i rest).trans (exec_withListing rest ht)
    exact (core_run_succ hstep).trans
      ((core_run_withListing rest t).trans (performLines_op_cons (exec_withListing [] ht)).symm)

theorem withListing_nil (hp : s.producerQ = []) (hc : s.consumerQ = []) (hv : s.supervisorQ = [])
    (hs : s.schedule = []) : s.withListing [] = s := by
  cases s
  subst hp hc hv hs
  rfl

/-- Settles O38, by induction on the listing: each line is one step, and leaves the machine with the rest. -/
theorem everyInterleavingIsARun : Obligations.EveryInterleavingIsARun := by
  intro lines s hp hc hv hs
  rw [core_run_withListing, withListing_nil hp hc hv hs]

/-! ## One producer and one consumer -/

/-- A consumer never adds an element. -/
theorem occ_le_of_consumer (h : exec i s = .next t) (hi : mayIssue .consumer i = true) (hr : s.inRange = true) :
    t.occ ≤ s.occ := by
  cases performs_of_exec h with
  | query | getEmpty | putFull => exact le_rfl
  | getOk hocc => exact (occ_getOk hr hocc _).trans_le (Nat.sub_le _ _)
  | init | refresh | putOk => cases hi

/-- A producer never removes an element. -/
theorem le_occ_of_producer (h : exec i s = .next t) (hi : mayIssue .producer i = true) (hinv : s.inv = true) :
    s.occ ≤ t.occ := by
  obtain ⟨hr, hle, -⟩ := inv_iff.mp hinv
  cases performs_of_exec h with
  | query | getEmpty | putFull => exact le_rfl
  | putOk v hocc => exact (Nat.le_succ _).trans_eq (occ_putOk hr (lt_of_le_of_ne hle hocc) v).symm
  | init | refresh | getOk => cases hi

theorem performAll_consumer {ops : List Instr} (hinv : s.inv = true) (hops : ∀ i ∈ ops, mayIssue .consumer i = true) :
    ∃ t, performAll ops s = .next t ∧ t.inv = true ∧ t.cfg = s.cfg ∧ t.occ ≤ s.occ := by
  refine exists_performAll_of_keeps (P := fun u => u.inv = true ∧ u.cfg = s.cfg ∧ u.occ ≤ s.occ) ?_
    ⟨hinv, rfl, le_rfl⟩
  rintro i hi u w hw ⟨hu, hcfg, hle⟩
  obtain ⟨hr, -, -⟩ := inv_iff.mp hu
  exact ⟨exec_keeps_inv hw hu, (exec_cfg hw).trans hcfg, (occ_le_of_consumer hw (hops i hi) hr).trans hle⟩

theorem performAll_producer {ops : List Instr} (hinv : s.inv = true) (hops : ∀ i ∈ ops, mayIssue .producer i = true) :
    ∃ t, performAll ops s = .next t ∧ t.inv = true ∧ s.occ ≤ t.occ := by
  refine exists_performAll_of_keeps (P := fun u => u.inv = true ∧ s.occ ≤ u.occ) ?_ ⟨hinv, le_rfl⟩
  rintro i hi u w hw ⟨hu, hle⟩
  exact ⟨exec_keeps_inv hw hu, hle.trans (le_occ_of_producer hw (hops i hi) hu)⟩

/-- Settles O39: the other role moves the count away from the bound that was checked. -/
theorem checkThenActIsSafeForOneProducerOneConsumer :
    Obligations.CheckThenActIsSafeForOneProducerOneConsumer := by
  constructor
  · intro ops s hinv hops
    obtain ⟨t, ht, -, hcfg, hle⟩ := performAll_consumer hinv hops
    refine ⟨t, ht, hle, fun hfull v => ?_⟩
    obtain ⟨-, hcap, -⟩ := inv_iff.mp hinv
    have hne : s.occ ≠ s.cfg.capacity := by
      rwa [Ne, ← isFull_eq_true_iff, Bool.not_eq_true]
    have hput : t.occ ≠ t.cfg.capacity := by
      rw [hcfg]
      omega
    exact ⟨_, exec_put_of_occ_ne_capacity v hput, rfl⟩
  · intro ops s hinv hops
    obtain ⟨t, ht, -, hle⟩ := performAll_producer hinv hops
    refine ⟨t, ht, hle, fun hempty => ?_⟩
    have hne : s.occ ≠ 0 := by
      rwa [Ne, ← isEmpty_eq_true_iff, Bool.not_eq_true]
    have hget : t.occ ≠ 0 := by omega
    exact ⟨_, exec_get_of_occ_ne_zero hget, rfl⟩

/-! ## Put and get pairs -/

/-- On an empty buffer the element put lies in the slot that the GET reads. -/
theorem performAll_put_get (x : Element) (hr : s.inRange = true) (heq : s.head = s.tail) :
    ∃ t, performAll [.put x, .get] s = .next t ∧ t.inRange = true ∧ t.cfg = s.cfg ∧ t.out = x ∧
      t.responses = s.responses ++ [.status (statusCode .ok), .status (statusCode .ok)] ∧
      t.head = t.tail ∧ t.head = Counter.inc s.cfg s.head := by
  obtain ⟨hhead, htail, hwf, -⟩ := inRange_iff.mp hr
  have hocc : s.occ = 0 := (occ_eq_zero_iff hhead htail).mpr heq
  have hlt : s.occ < s.cfg.capacity := by rw [hocc]; exact s.cfg.capacity_pos
  have hput := exec_put_of_occ_ne_capacity x hlt.ne
  have hget := exec_get_of_occ_ne_zero ((occ_putOk hr hlt x).trans_ne (Nat.succ_ne_zero _))
  have hslot : s.readSlot = s.writeSlot := congrArg (Counter.idx s.cfg) heq.symm
  refine ⟨_, (performAll_cons hput).trans (performAll_cons hget),
    exec_keeps_inRange hget (exec_keeps_inRange hput hr), rfl, ?_, ?_, ?_, rfl⟩
  · exact (congrArg (Memory.read _) hslot).trans (read_write_same hwf _ x)
  · simp
  · exact congrArg (Counter.inc s.cfg) heq

/-- Settles O20, by induction on the pairs: each leaves the buffer empty, both counters one further. -/
theorem putGetPairsReturnTheElement : Obligations.PutGetPairsReturnTheElement := by
  intro vs v
  induction vs with
  | nil =>
    intro s hr heq
    obtain ⟨t, ht, -, -, hout, hresp, hempty, hhead⟩ := performAll_put_get v hr heq
    exact ⟨t, ht, hout, hresp, hempty, hhead⟩
  | cons x vs ih =>
    intro s hr heq
    obtain ⟨u, hu, hur, hcfg, -, huresp, huempty, huhead⟩ := performAll_put_get x hr heq
    obtain ⟨t, ht, hout, hresp, hempty, hhead⟩ := ih u hur huempty
    refine ⟨t, (performAll_append hu).trans ht, hout, ?_, hempty, ?_⟩
    · rw [hresp, huresp, List.append_assoc]
      rfl
    · rw [hhead, hcfg, huhead, Counter.inc, Nat.add_assoc, Nat.mod_add_mod, List.length_cons]
      congr 1
      omega

/-! ## The contents: what each update of the state makes of them -/

@[simp] theorem length_contents (s : State) : s.contents.length = s.occ := by simp [State.contents]

@[simp] theorem contents_respond (s : State) (r : Result) : (s.respond r).contents = s.contents := rfl
@[simp] theorem contents_report (s : State) (st : Status) : (s.report st).contents = s.contents := rfl

theorem contents_eq_nil (h : s.occ = 0) : s.contents = [] := by
  rw [← List.length_eq_zero_iff, length_contents, h]

@[simp] theorem contents_rewind (s : State) : s.rewind.contents = [] := contents_eq_nil (occ_rewind s)
@[simp] theorem contents_initialise (s : State) : s.initialise.contents = [] := contents_eq_nil (occ_rewind s)

theorem slotAt_zero (hr : s.inRange = true) : s.slotAt 0 = s.readSlot := by
  obtain ⟨-, htail, -, -⟩ := inRange_iff.mp hr
  rw [State.slotAt, Nat.add_zero, Nat.mod_eq_of_lt htail, State.readSlot]

/-- Behind the last outstanding element lies the slot that the next PUT writes. -/
theorem slotAt_occ (hr : s.inRange = true) : s.slotAt s.occ = s.writeSlot := by
  obtain ⟨hhead, htail, -, -⟩ := inRange_iff.mp hr
  rw [State.slotAt, tail_add_occ hhead htail, State.writeSlot]

theorem slotAt_advanceTail (s : State) (k : Nat) : s.advanceTail.slotAt k = s.slotAt (k + 1) := by
  simp only [State.slotAt, tail_advanceTail, cfg_advanceTail, Counter.inc, Nat.mod_add_mod]
  rw [Nat.add_assoc, Nat.add_comm 1 k]

/-- The oldest element lies in the read slot, and without it remain the contents after a GET. -/
theorem contents_eq_cons (hr : s.inRange = true) (h : s.occ ≠ 0) :
    s.contents = Memory.read s.store s.readSlot :: s.advanceTail.contents := by
  obtain ⟨n, hn⟩ := Nat.exists_eq_succ_of_ne_zero h
  have hrest : s.advanceTail.occ = n := by rw [occ_advanceTail hr h, hn, Nat.succ_sub_one]
  simp only [State.contents, hn, hrest, List.range_succ_eq_map, List.map_cons, List.map_map, slotAt_zero hr]
  congr 1
  exact List.map_congr_left fun k _ => congrArg (Memory.read s.store) (slotAt_advanceTail s k).symm

/-- A PUT appends its element, unless it writes the slot of an outstanding one. -/
theorem contents_write_advanceHead (v : Element) (hr : s.inRange = true) (hlt : s.occ < s.cfg.capacity)
    (hfree : ∀ k < s.occ, s.slotAt k ≠ s.writeSlot) :
    ({ s with store := Memory.write s.store s.writeSlot v } : State).advanceHead.contents = s.contents ++ [v] := by
  obtain ⟨-, -, hwf, -⟩ := inRange_iff.mp hr
  have hocc : ({ s with store := Memory.write s.store s.writeSlot v } : State).advanceHead.occ = s.occ + 1 :=
    occ_advanceHead (inRange_write_writeSlot v hr) hlt
  rw [State.contents, hocc, List.range_succ, List.map_append, State.contents]
  congr 1
  · refine List.map_congr_left fun k hk => ?_
    exact read_write_of_ne hwf v (hfree k (List.mem_range.mp hk))
  · exact congrArg (fun e => [e]) ((congrArg (Memory.read _) (slotAt_occ hr)).trans (read_write_same hwf _ v))

/-! ## Each operation acts on the ideal queue -/

theorem headD_contents (hr : s.inRange = true) :
    s.contents.headD 0#8 = if s.isEmpty then 0#8 else Memory.read s.store s.readSlot := by
  by_cases hocc : s.occ = 0
  · rw [contents_eq_nil hocc, if_pos ((isEmpty_eq_true_iff s).mpr hocc)]
    rfl
  · rw [contents_eq_cons hr hocc, if_neg (mt (isEmpty_eq_true_iff s).mp hocc)]
    rfl

theorem isEmpty_contents (s : State) : s.contents.isEmpty = s.isEmpty := by
  rw [Bool.eq_iff_iff, isEmpty_eq_true_iff, List.isEmpty_iff, ← List.length_eq_zero_iff, length_contents]

theorem ideal_perform_query (hr : s.inRange = true) (hq : i.isQuery = true) :
    Ideal.perform s.cfg.capacity i s.ideal = (s.ideal, s.queryAnswer i) := by
  cases i with
  | getstatus => rfl
  | count => simp [Ideal.perform, State.ideal, State.queryAnswer]
  | isempty => simp [Ideal.perform, State.ideal, State.queryAnswer, isEmpty_contents]
  | isfull => simp [Ideal.perform, State.ideal, State.queryAnswer, State.isFull, beq_eq_decide]
  | peek => simp only [Ideal.perform, State.ideal, State.queryAnswer, headD_contents hr]
  | init | refresh | get | put => cases hq

/-- An operation does to the contents, the status and `out` what it does to the ideal queue, and answers the same; a PUT
on a buffer that is not full, if it writes no outstanding element's slot (R91). -/
theorem exec_refines (h : exec i s = .next t) (hinv : s.inv = true)
    (hfree : i ∈ Set.range Instr.put → s.occ ≠ s.cfg.capacity → ∀ k < s.occ, s.slotAt k ≠ s.writeSlot) :
    t.ideal = (Ideal.perform s.cfg.capacity i s.ideal).1 ∧
      t.response = some (Ideal.perform s.cfg.capacity i s.ideal).2 := by
  obtain ⟨hr, hle, -⟩ := inv_iff.mp hinv
  cases performs_of_exec h with
  | query hq r =>
    rw [exec_of_isQuery hq] at h
    injection h with h
    rw [← h, ideal_perform_query hr hq]
    exact ⟨rfl, rfl⟩
  | init => simp [Ideal.perform, State.ideal]
  | refresh => simp [Ideal.perform, State.ideal]
  | getEmpty hocc => simp [Ideal.perform, State.ideal, contents_eq_nil hocc]
  | getOk hocc =>
    have hrest : (s.setOut (Memory.read s.store s.readSlot)).advanceTail.contents = s.advanceTail.contents := rfl
    simp [Ideal.perform, State.ideal, contents_eq_cons hr hocc, hrest]
  | putFull v hocc => simp [Ideal.perform, State.ideal, hocc]
  | putOk v hocc =>
    have happend := contents_write_advanceHead v hr (lt_of_le_of_ne hle hocc) (hfree ⟨v, rfl⟩ hocc)
    simp [Ideal.perform, State.ideal, hocc, happend]

/-! ## The block with `WrapSafe` -/

/-- With `WrapSafe` the counter wrap is invisible in the slots: they succeed one another round the store. -/
theorem slotAt_of_wrapSafe (hw : s.cfg.WrapSafe) (k : Nat) : s.slotAt k = (s.tail + k) % s.cfg.capacity :=
  Nat.mod_mod_of_dvd _ (Nat.dvd_of_mod_eq_zero hw)

/-- No element before the `n`-th lies in its slot, up to the capacity. -/
theorem slotAt_ne_of_wrapSafe (hw : s.cfg.WrapSafe) {k n : Nat} (hk : k < n) (hn : n < s.cfg.capacity) :
    s.slotAt k ≠ s.slotAt n := by
  rw [slotAt_of_wrapSafe hw, slotAt_of_wrapSafe hw]
  intro heq
  have hmod : k ≡ n [MOD s.cfg.capacity] := Nat.ModEq.add_left_cancel' s.tail heq
  exact hk.ne (hmod.eq_of_lt_of_lt (hk.trans hn) hn)

theorem exec_refines_of_wrapSafe (h : exec i s = .next t) (hinv : s.inv = true) (hw : s.cfg.WrapSafe) :
    t.ideal = (Ideal.perform s.cfg.capacity i s.ideal).1 ∧
      t.response = some (Ideal.perform s.cfg.capacity i s.ideal).2 := by
  obtain ⟨hr, hle, -⟩ := inv_iff.mp hinv
  refine exec_refines h hinv fun _ hocc k hk => ?_
  rw [← slotAt_occ hr]
  exact slotAt_ne_of_wrapSafe hw hk (lt_of_le_of_ne hle hocc)

/-- Settles O48, by induction on the operations: each refines the ideal queue and keeps the invariant and the
configuration. -/
theorem wrapSafeBlockIsAFifo : Obligations.WrapSafeBlockIsAFifo := by
  intro ops
  induction ops with
  | nil => exact fun s _ _ => ⟨s, rfl, rfl, (List.append_nil _).symm⟩
  | cons i ops ih =>
    intro s hinv hw
    obtain ⟨u, hu⟩ := exists_exec_eq_next i s
    obtain ⟨hideal, hresponse⟩ := exec_refines_of_wrapSafe hu hinv hw
    have hcfg : u.cfg = s.cfg := exec_cfg hu
    obtain ⟨t, ht, htideal, htresp⟩ := ih u (exec_keeps_inv hu hinv) (hcfg.symm ▸ hw)
    rw [hcfg, hideal] at htideal htresp
    refine ⟨t, (performAll_cons hu).trans ht, htideal, ?_⟩
    rw [htresp, exec_responses hu, hresponse, List.append_assoc]
    rfl

end Sys2Proof.Machine
end

