-- ==== Sys2Proof/Proofs/Encoding.lean ====
section
/-! PROOFS. The encoding (spec/30_encoding.md): what the decoder answers on each command word (R60 to R62, R65, R67), the
values of the status codes (R63), and the step that performs a presented command (R70, R71). -/

namespace Sys2Proof

/-! ## The fields of a command word -/

theorem opcodeField_append (op : Opcode) (d : Element) : opcodeField (op ++ d) = op :=
  (Laws.CanonicalWord.fields_append op d).1

/-- A command word is its two fields and nothing else (R60). -/
theorem opcodeField_append_dataField (c : Command) : opcodeField c ++ dataField c = c :=
  BitVec.extractLsb'_append_extractLsb'

theorem toNat_opcodeField (c : Command) : (opcodeField c).toNat = c.toNat / 256 := by
  have hc : c.toNat < 4096 := c.isLt
  rw [opcodeField, BitVec.extractLsb'_toNat, Nat.shiftRight_eq_div_pow]
  omega

/-! ## What the decoder answers -/

/-- An operation is read off the opcode; only PUT's operand is read off the `data` field (R61, R62). -/
theorem decode_eq_ok_iff {c : Command} {i : Instr} :
    decode c = .ok i ↔ opcodeField c = opcodeOf i ∧ ∀ v, i = .put v → dataField c = v := by
  unfold decode
  constructor
  · intro h
    split at h <;> cases h <;> exact ⟨BitVec.eq_of_toNat_eq ‹_›, by simp⟩
  · rintro ⟨hop, hdata⟩
    rw [hop]
    cases i with
    | put v => rw [hdata v rfl]; rfl
    | init | getstatus | isfull | isempty | peek | get | count | refresh => rfl

/-- A word is rejected by its opcode, which is then 9 or more (R65). -/
theorem decode_eq_reserved_iff {c : Command} {op : Opcode} :
    decode c = .error (.reservedOpcode op) ↔ opcodeField c = op ∧ 9 ≤ op.toNat := by
  unfold decode
  constructor
  · intro h
    split at h <;> cases h
    refine ⟨rfl, ?_⟩
    simp only [imp_false] at *
    omega
  · rintro ⟨rfl, hop⟩
    split
    case h_10 => rfl
    all_goals omega

/-- The `data` bits matter to PUT alone (R67). -/
theorem decode_append_of_ne_put {op : Opcode} (d d' : Element) (hput : op ≠ 6#4) :
    decode (op ++ d) = decode (op ++ d') := by
  cases hd : decode (op ++ d') with
  | ok i =>
    rw [decode_eq_ok_iff, opcodeField_append] at hd ⊢
    obtain ⟨hop, -⟩ := hd
    refine ⟨hop, ?_⟩
    rintro v rfl
    exact absurd hop hput
  | error e =>
    obtain ⟨op'⟩ := e
    rwa [decode_eq_reserved_iff, opcodeField_append] at hd ⊢

theorem encode_put_of_decode {c : Command} {v : Element} (h : decode c = .ok (.put v)) : encode (.put v) = c := by
  obtain ⟨hop, hdata⟩ := decode_eq_ok_iff.mp h
  rw [← opcodeField_append_dataField c, hop, hdata v rfl]
  rfl

/-- Settles O2, by `decode_encode`, which needs no well-formedness: every term is well formed (R62). -/
theorem decodeOfEncode : Obligations.DecodeOfEncode := fun i _ => Machine.decode_encode i

/-- Settles O4, by what the decoder answers and the opcode field as a number. -/
theorem decodedWordHasItsOpcode : Obligations.DecodedWordHasItsOpcode := by
  refine ⟨fun c i h => ⟨?_, ?_⟩, fun c => ?_, fun c op h => ?_⟩
  · obtain ⟨hop, -⟩ := decode_eq_ok_iff.mp h
    exact hop.symm
  · rintro v rfl
    exact encode_put_of_decode h
  · simp [decode_eq_reserved_iff, toNat_opcodeField]
  · obtain ⟨rfl, -⟩ := decode_eq_reserved_iff.mp h
    exact toNat_opcodeField c

/-- Settles O1: the ten canonical words are encodings; the other two are a GET with `data` bits set and the first
reserved opcode. -/
theorem specWordsDecode : Obligations.SpecWordsDecode := by
  have h := Machine.decode_encode
  exact ⟨h .init, h .getstatus, h .isfull, h .isempty, h .peek, h .get, h (.put 10#8), h (.put 255#8), h .count,
    h .refresh, rfl, rfl⟩

namespace Machine

/-! ## The status codes -/

theorem statusOfCode_eq_some_iff {st : Status} {c : StatusCode} : statusOfCode c = some st ↔ c = statusCode st := by
  constructor
  · intro h
    unfold statusOfCode at h
    split at h <;> cases h <;> exact BitVec.eq_of_toNat_eq ‹_›
  · rintro rfl
    cases st <;> rfl

/-- Settles O5: a name and its code determine each other; the values themselves are the table of R63. -/
theorem statusCodesHaveTheirValues : Obligations.StatusCodesHaveTheirValues :=
  ⟨fun _ _ => statusOfCode_eq_some_iff, rfl, rfl, rfl⟩

/-! ## The step of a presented command -/

open StateLaws OpsLaws

variable {s : State} {a : Agent} {c : Command} {i : Instr}

theorem cmdPin_of_queue_eq_cons {rest : List Command} (ha : s.edge.grant = some a) (hq : s.queue a = c :: rest) :
    s.cmdPin = some c := by
  simp [State.cmdPin, ha, hq]

theorem step_of_cmd (hr : s.rstPin = false) (hc : s.cmdPin = some c) (hd : decode c = .ok i) :
    step s = exec i s.sampled := by
  rw [step, action_of_cmd hr hc, hd]

theorem step_present_of_decode (s : State) (a : Agent) (hd : decode c = .ok i) : step (s.present a c) = exec i s := by
  have hc : (s.present a c).cmdPin = some c := by cases a <;> rfl
  have hr : (s.present a c).rstPin = false := by cases a <;> rfl
  rw [step_of_cmd hr hc hd, sampled_present]

theorem sameBlock_sampled (s : State) : s.sameBlock s.sampled :=
  ⟨fun _ => by rw [store_sampled], store_sampled s, head_sampled s, tail_sampled s, lastStatus_sampled s, out_sampled s⟩

/-- Settles O32: the action is what the decoder reads, and sampling the edge takes the word and nothing else. -/
theorem stepPerformsThePresentedCommand : Obligations.StepPerformsThePresentedCommand := by
  intro s a c rest i hr ha hq hd
  refine ⟨step_of_cmd hr (cmdPin_of_queue_eq_cons ha hq) hd, sameBlock_sampled s, cfg_sampled s, responses_sampled s,
    schedule_sampled s, fun b => ?_⟩
  rw [queue_sampled, ha]
  by_cases hb : b = a
  · subst hb
    simp [hq]
  · simp [hb, Ne.symm hb]

/-- Settles O3: only PUT's operand comes from the `data` field, and a presented word acts by what it decodes to. -/
theorem dataBitsIgnoredButByPut : Obligations.DataBitsIgnoredButByPut := by
  refine ⟨fun _ d d' hput => decode_append_of_ne_put d d' hput, fun d => decode_encode (.put d),
    fun op d d' i hput hd s a => ?_⟩
  have hd' : decode (op ++ d') = .ok i := (decode_append_of_ne_put d' d hput).trans hd
  rw [step_present_of_decode s a hd, step_present_of_decode s a hd']

end Machine

end Sys2Proof
end

/-! PROOFS. The counters and the occupancy (spec/40_counter_and_occupancy.md): how the counters advance (R80), the slots
they select (R81), the occupancy and its two tests (R82 to R84, R86), the three occupancy queries (R88 to R90), and the
slots that two elements share at the counter wrap (R87, R168). -/

namespace Sys2Proof.Machine

open StateLaws CounterLaws MemoryLaws OpsLaws

variable {s t : State} {i : Instr}

/-! ## The counters advance by one -/

theorem exec_head (h : exec i s = .next t) :
    t.head = if i = .init ∨ i = .refresh then 0
      else if i ∈ Set.range Instr.put ∧ t.response = some (.status (statusCode .ok)) then Counter.inc s.cfg s.head
      else s.head := by
  cases performs_of_exec h with
  | query hq r =>
    rw [if_neg (by rintro (rfl | rfl) <;> cases hq), if_neg (by rintro ⟨⟨v, rfl⟩, -⟩; cases hq), head_respond]
  | putFull => simp [statusCode]
  | init | refresh | getEmpty | getOk | putOk => simp

theorem exec_tail (h : exec i s = .next t) :
    t.tail = if i = .init ∨ i = .refresh then 0
      else if i = .get ∧ t.response = some (.status (statusCode .ok)) then Counter.inc s.cfg s.tail
      else s.tail := by
  cases performs_of_exec h with
  | query hq r =>
    rw [if_neg (by rintro (rfl | rfl) <;> cases hq), if_neg (by rintro ⟨rfl, -⟩; cases hq), tail_respond]
  | getEmpty => simp [statusCode]
  | init | refresh | getOk | putFull | putOk => simp

/-- Whatever moves a counter sets OK: the wrap is silent. -/
theorem exec_lastStatus_of_counter_ne (h : exec i s = .next t) (hne : t.head ≠ s.head ∨ t.tail ≠ s.tail) :
    t.lastStatus = statusCode .ok := by
  cases performs_of_exec h with
  | query | getEmpty | putFull => simp at hne
  | init | refresh | getOk | putOk => rfl

/-- Settles O8: the increment by its three laws, the operations one by one. -/
theorem countersAdvanceByOneOnly : Obligations.CountersAdvanceByOneOnly := by
  refine ⟨fun c n hn => ⟨inc_lt c n, fun hne => inc_of_lt (by omega), ?_⟩, fun i s t h =>
    ⟨exec_head h, exec_tail h, exec_lastStatus_of_counter_ne h, exec_sameSurroundings h⟩⟩
  rintro rfl
  exact inc_last c

/-! ## The slot of a counter value -/

theorem idx_succ (c : Config) (n : Nat) : Counter.idx c (n + 1) = (Counter.idx c n + 1) % c.capacity :=
  (Nat.mod_add_mod n c.capacity 1).symm

/-- The slot wrap. -/
theorem idx_succ_of_last {c : Config} {n : Nat} (h : Counter.idx c n = c.capacity - 1) :
    Counter.idx c (n + 1) = 0 := by
  rw [idx_succ, h, Nat.sub_add_cancel c.capacity_pos, Nat.mod_self]

theorem idx_zero (c : Config) : Counter.idx c 0 = 0 := Nat.zero_mod _

/-- The slot before the counter wrap; the integer remainder says what `R_WRAP - 1` is for `R_WRAP = 0`. -/
theorem idx_modulus_sub_one (c : Config) :
    (Counter.idx c (c.modulus - 1) : Int) = ((c.rWrap : Int) - 1) % (c.capacity : Int) := by
  rw [Counter.idx, Config.rWrap, Int.natCast_mod, Int.natCast_mod, Int.emod_sub_emod, Nat.cast_sub (modulus_pos c)]
  rfl

/-- Without the wrap the value after `M - 1` would be `M`, whose slot is `R_WRAP`; the register holds 0. -/
theorem idx_inc_last_eq_iff (c : Config) :
    Counter.idx c (Counter.inc c (c.modulus - 1)) = (Counter.idx c (c.modulus - 1) + 1) % c.capacity ↔
      c.rWrap = 0 := by
  rw [inc_last, idx_zero, ← idx_succ, Nat.sub_add_cancel (modulus_pos c)]
  exact eq_comm

/-- Settles O9, by the laws of the remainder. -/
theorem slotsSucceedUpToTheCounterWrap : Obligations.SlotsSucceedUpToTheCounterWrap := by
  refine fun c => ⟨fun n => ⟨rfl, Nat.le_sub_one_of_lt (idx_lt c n)⟩, fun n _ => idx_succ c n,
    fun n h _ => idx_succ_of_last h, ?_, idx_zero c, idx_modulus_sub_one c, idx_inc_last_eq_iff c⟩
  rintro s rfl
  exact ⟨rfl, rfl⟩

/-! ## The occupancy -/

/-- Both counts taken modulo `M` differ by the occupancy, and so do the counts: `P - G <= CAPACITY < M`. -/
theorem occ_of_countedBy {n : Tally} (h : s.countedBy n) : s.occ = n.puts - n.gets := by
  obtain ⟨hhead, htail, hle, hcap⟩ := h
  have hM := modulus_pos s.cfg
  have hsum : (s.tail + s.occ) % s.cfg.modulus = s.head :=
    tail_add_occ (hhead ▸ Nat.mod_lt _ hM) (htail ▸ Nat.mod_lt _ hM)
  have hmod : n.gets + s.occ ≡ n.gets + (n.puts - n.gets) [MOD s.cfg.modulus] := by
    rw [Nat.add_sub_cancel' hle, Nat.ModEq, ← hhead, ← hsum, htail, Nat.mod_add_mod]
  exact (Nat.ModEq.add_left_cancel' _ hmod).eq_of_lt_of_lt (occ_lt s) (hcap.trans_lt (capacity_lt_modulus s.cfg))

/-- Settles O10: the two branches are laws of the counters, the count is `occ_of_countedBy`. -/
theorem occupancyIsTheWrappingDifference : Obligations.OccupancyIsTheWrappingDifference :=
  fun s hhead htail => ⟨occ_lt s, fun h => occ_of_le h hhead, fun h => occ_of_lt h htail,
    fun _ => occ_of_countedBy⟩

theorem occ_eq_ite (hr : s.inRange = true) :
    s.occ = if s.tail ≤ s.head then s.head - s.tail else s.head + s.cfg.modulus - s.tail := by
  obtain ⟨hhead, htail, -, -⟩ := inRange_iff.mp hr
  split
  · exact occ_of_le ‹_› hhead
  · exact occ_of_lt (by omega) htail

/-- Equal counters are an empty buffer even where they are no register values. -/
theorem occ_eq_zero_of_head_eq_tail (h : s.head = s.tail) : s.occ = 0 := by
  simp [State.occ, h]

/-! ## Empty and full -/

theorem isEmpty_eq_decide (s : State) : s.isEmpty = decide (s.occ = 0) := beq_eq_decide _ _

theorem isFull_eq_decide (s : State) : s.isFull = decide (s.occ = s.cfg.capacity) := beq_eq_decide _ _

theorem not_isEmpty_and_isFull (s : State) : ¬ (s.isEmpty = true ∧ s.isFull = true) := by
  rw [isEmpty_eq_true_iff, isFull_eq_true_iff]
  rintro ⟨hzero, hcap⟩
  exact Nat.ne_of_lt s.cfg.capacity_pos (hzero.symm.trans hcap)

/-- A full buffer: `CAPACITY` elements put since reset, none got. -/
def State.filled (c : Config) : State := { State.initial c 0#8 with head := c.capacity }

theorem inRange_filled (c : Config) : (State.filled c).inRange = true :=
  inRange_iff.mpr ⟨capacity_lt_modulus c, modulus_pos c, rfl, rfl⟩

/-- `CAPACITY` is a value of the occupancy, for it is below `M`. -/
theorem occ_filled (c : Config) : (State.filled c).occ = c.capacity :=
  occ_of_le (Nat.zero_le _) (capacity_lt_modulus c)

/-- Settles O11; `State.filled` is the full buffer of each configuration. -/
theorem emptyAndFullAreDistinct : Obligations.EmptyAndFullAreDistinct := by
  refine ⟨fun s hhead htail => ⟨isEmpty_eq_true_iff s, ?_, isFull_eq_true_iff s, fun hgt => ?_,
    not_isEmpty_and_isFull s⟩, fun c => ⟨State.filled c, rfl, inRange_filled c, occ_filled c,
    (isFull_eq_true_iff _).mpr (occ_filled c)⟩⟩
  · rw [isEmpty_eq_true_iff, occ_eq_zero_iff hhead htail]
  · rw [isFull_eq_decide, decide_eq_false hgt.ne']

/-! ## What a query puts on the response port -/

theorem decode_opcodeOf_append (d : Element) (hput : ∀ v, i ≠ .put v) : decode (opcodeOf i ++ d) = .ok i :=
  decode_eq_ok_iff.mpr ⟨opcodeField_append _ d, fun v hv => absurd hv (hput v)⟩

/-- A number that fits the response word is on the port as it is (R64). -/
theorem answers_respond {r : Result} (hr : r.value < 2 ^ s.cfg.responseWidth) : s.answers (s.respond r) r :=
  ⟨rfl, rfl, rfl, Nat.mod_eq_of_lt hr⟩

/-- `RW = max(CW, DW, 3)`: what fits the counters, an element or a status code fits the response word. -/
theorem lt_two_pow_responseWidth {c : Config} {n w : Nat} (hn : n < 2 ^ w)
    (hw : w ≤ c.counterWidth ∨ w ≤ 8 ∨ w ≤ 3) : n < 2 ^ c.responseWidth := by
  refine hn.trans_le (Nat.pow_le_pow_right Nat.two_pos ?_)
  unfold Config.responseWidth
  omega

theorem queryAnswer_value_lt (s : State) (i : Instr) : (s.queryAnswer i).value < 2 ^ s.cfg.responseWidth := by
  cases i with
  | count => exact lt_two_pow_responseWidth (occ_lt s) (.inl le_rfl)
  | isfull | isempty => exact lt_two_pow_responseWidth (Bool.toNat_lt _) (w := 1) (by omega)
  | peek => exact lt_two_pow_responseWidth (BitVec.isLt _) (.inr (.inl le_rfl))
  | getstatus => exact lt_two_pow_responseWidth (BitVec.isLt _) (.inr (.inr le_rfl))
  | init | refresh | get | put => exact Nat.two_pow_pos _

theorem rsp_of_answers {r : Result} (h : s.answers t r) : t.rsp.toNat = r.value := by
  obtain ⟨-, -, -, hrsp⟩ := h
  exact hrsp

theorem rsp_of_answers_flag {p : Prop} [Decidable p] (h : s.answers t (.flag (decide p))) :
    t.rsp.toNat = if p then 1 else 0 := by
  rw [rsp_of_answers h, Result.value]
  by_cases hp : p <;> simp [hp]

/-- A query completes, leaves the block and the surroundings, and its answer is on the port. -/
theorem exec_query_answers (s : State) (hq : i.isQuery = true) : ∃ t, exec i s = .next t ∧ s.sameBlock t ∧
    s.sameSurroundings t ∧ s.answers t (s.queryAnswer i) :=
  have h := exec_of_isQuery (s := s) hq
  ⟨_, h, exec_query_sameBlock hq h, exec_sameSurroundings h, answers_respond (queryAnswer_value_lt s i)⟩

/-! ## COUNT -/

theorem occ_of_sameBlock (hc : t.cfg = s.cfg) (hb : s.sameBlock t) : t.occ = s.occ := by
  obtain ⟨-, -, hhead, htail, -⟩ := hb
  exact occ_congr hc hhead htail

theorem exec_count_response (h : exec .count s = .next t) : t.response = some (.count s.occ) := by
  cases h
  rfl

/-- After INIT, REFRESH or a reset, COUNT answers 0. -/
theorem exec_count_of_occ_eq_zero (h : s.occ = 0) :
    ∃ w, exec .count s = .next w ∧ w.response = some (.count 0) :=
  ⟨_, rfl, congrArg (fun n => some (Result.count n)) h⟩

/-- Settles O12: the answer is `occ()`, which is `CAPACITY` when full and 0 once rewound. -/
theorem countAnswersOccupancy : Obligations.CountAnswersOccupancy := by
  refine ⟨fun d => decode_opcodeOf_append (i := .count) d nofun, fun s hr => ?_⟩
  obtain ⟨t, ht, hblock, hsurr, hanswer⟩ := exec_query_answers s (i := .count) rfl
  have hresponse : t.response = some (.count s.occ) := exec_count_response ht
  refine ⟨t, ht, hblock, hsurr, occ_eq_ite hr ▸ hanswer, fun hfull => ?_, fun hinv => ?_, ?_, ?_, ?_⟩
  · rw [hresponse, (isFull_eq_true_iff s).mp hfull]
  · obtain ⟨-, hle, -⟩ := inv_iff.mp hinv
    exact (rsp_of_answers hanswer).trans_le hle
  · obtain ⟨u, hu⟩ := exists_exec_eq_next .count t
    exact ⟨u, hu, by rw [exec_count_response hu, occ_of_sameBlock (exec_cfg ht) hblock, hresponse]⟩
  · rintro i (rfl | rfl)
    · obtain ⟨w, hw⟩ := exec_count_of_occ_eq_zero (s := s.initialise.respond .nothing) (occ_rewind s)
      exact ⟨_, w, rfl, hw⟩
    · obtain ⟨w, hw⟩ := exec_count_of_occ_eq_zero (s := s.rewind.respond .nothing) (occ_rewind s)
      exact ⟨_, w, rfl, hw⟩
  · exact exec_count_of_occ_eq_zero (s := s.hardReset) (occ_rewind s)

/-! ## ISFULL -/

theorem exec_put_full_iff (v : Element) (s : State) :
    (∃ u, exec (.put v) s = .next u ∧ u.response = some (.status (statusCode .full))) ↔
      s.occ = s.cfg.capacity := by
  refine ⟨?_, fun h => ⟨_, exec_put_of_occ_eq_capacity v h, rfl⟩⟩
  rintro ⟨u, hu, hresp⟩
  cases performs_of_exec hu with
  | query hq => cases hq
  | putFull _ h => exact h
  | putOk => simp [statusCode] at hresp

/-- One element fills a buffer of `CAPACITY` 1. -/
theorem exec_put_isfull_of_capacity_one (v : Element) (hr : s.inRange = true) (hcap : s.cfg.capacity = 1)
    (hocc : s.occ = 0) : ∃ u w, exec (.put v) s = .next u ∧ u.response = some (.status (statusCode .ok)) ∧
      exec .isfull u = .next w ∧ w.response = some (.flag true) := by
  have hlt : s.occ < s.cfg.capacity := by omega
  refine ⟨_, _, exec_put_of_occ_ne_capacity v hlt.ne, rfl, exec_of_isQuery rfl, ?_⟩
  refine congrArg (fun b => some (Result.flag b)) ((isFull_eq_true_iff _).mpr ?_)
  exact (occ_putOk hr hlt v).trans ((congrArg (· + 1) hocc).trans hcap.symm)

/-- Settles O13: the flag on the port is 1 exactly when the occupancy is `CAPACITY`, from which the clauses follow. -/
theorem isfullAnswersWhetherPutIsRejected : Obligations.IsfullAnswersWhetherPutIsRejected := by
  refine ⟨fun d => decode_opcodeOf_append (i := .isfull) d nofun, fun s => ?_⟩
  obtain ⟨t, ht, hblock, hsurr, hanswer⟩ := exec_query_answers s (i := .isfull) rfl
  rw [State.queryAnswer, isFull_eq_decide] at hanswer
  have hrsp := rsp_of_answers_flag hanswer
  refine ⟨t, ht, hblock, hsurr, hanswer, hrsp, fun heq => ?_, fun hgt => ?_, fun v => ?_, fun hr hcap heq v => ?_⟩
  · rw [hrsp, occ_eq_zero_of_head_eq_tail heq, if_neg (Nat.ne_of_lt s.cfg.capacity_pos)]
  · rw [hrsp, if_neg hgt.ne']
  · rw [hrsp, exec_put_full_iff]
    simp
  · exact exec_put_isfull_of_capacity_one v hr hcap (occ_eq_zero_of_head_eq_tail heq)

/-! ## ISEMPTY -/

theorem exec_get_empty_iff (s : State) :
    (∃ u, exec .get s = .next u ∧ u.response = some (.status (statusCode .empty))) ↔ s.occ = 0 := by
  refine ⟨?_, fun h => ⟨_, exec_get_of_occ_eq_zero h, rfl⟩⟩
  rintro ⟨u, hu, hresp⟩
  cases performs_of_exec hu with
  | query hq => cases hq
  | getEmpty h => exact h
  | getOk => simp [statusCode] at hresp

/-- PEEK's sentinel. -/
theorem exec_peek_of_occ_eq_zero (h : s.occ = 0) : exec .peek s = .next (s.respond (.element 0#8)) := by
  rw [exec, execPeek_eq, if_pos ((isEmpty_eq_true_iff s).mpr h)]

/-- Settles O14: the flag on the port is 1 exactly when the occupancy is 0, from which the clauses follow. -/
theorem isemptyAnswersWhetherGetFails : Obligations.IsemptyAnswersWhetherGetFails := by
  refine ⟨fun d => decode_opcodeOf_append (i := .isempty) d nofun, fun s hr => ?_⟩
  obtain ⟨hhead, htail, -, -⟩ := inRange_iff.mp hr
  obtain ⟨t, ht, hblock, hsurr, hanswer⟩ := exec_query_answers s (i := .isempty) rfl
  rw [State.queryAnswer, isEmpty_eq_decide] at hanswer
  have hrsp := rsp_of_answers_flag hanswer
  have hone : t.rsp.toNat = 1 ↔ s.occ = 0 := by
    rw [hrsp]
    simp
  refine ⟨t, ht, hblock, hsurr, ?_, hrsp, hone.trans (exec_get_empty_iff s).symm, fun h => ?_⟩
  · simpa only [occ_eq_zero_iff hhead htail] using hanswer
  · exact ⟨_, exec_peek_of_occ_eq_zero (hone.mp h), rfl⟩

/-! ## Two outstanding elements in one slot -/

theorem slotAt_of_lt {k : Nat} (h : s.tail + k < s.cfg.modulus) : s.slotAt k = (s.tail + k) % s.cfg.capacity := by
  rw [State.slotAt, Nat.mod_eq_of_lt h, Counter.idx]

/-- Past the counter wrap. -/
theorem slotAt_of_le {k : Nat} (h : s.cfg.modulus ≤ s.tail + k) (hk : s.tail + k < 2 * s.cfg.modulus) :
    s.slotAt k = (s.tail + k - s.cfg.modulus) % s.cfg.capacity := by
  rw [State.slotAt, Nat.mod_eq_sub_mod h, Nat.mod_eq_of_lt (by omega), Counter.idx]

/-- Two numbers less than `n` apart have different remainders. -/
theorem mod_ne_mod_of_lt {a b n : Nat} (hab : a < b) (hn : b - a < n) : a % n ≠ b % n := by
  intro heq
  have hdvd : n ∣ b - a := (Nat.modEq_iff_dvd' hab.le).mp heq
  exact absurd (Nat.le_of_dvd (by omega) hdvd) (by omega)

/-- `R_WRAP` is the one distance below `CAPACITY` that leaves a multiple of `CAPACITY` of `M`. -/
theorem capacity_dvd_modulus_sub_iff {c : Config} {d : Nat} (hd : d < c.capacity) :
    c.capacity ∣ c.modulus - d ↔ d = c.rWrap := by
  rw [← Nat.modEq_iff_dvd' (hd.trans (capacity_lt_modulus c)).le, Nat.ModEq, Nat.mod_eq_of_lt hd, Config.rWrap]

/-- Of two outstanding elements the slots are the same exactly when the counter wrap lies between them and they are
`R_WRAP` apart. -/
theorem slotAt_eq_slotAt_iff {j k : Nat} (ht : s.tail < s.cfg.modulus) (hjk : j < k) (hk : k < s.cfg.capacity) :
    s.slotAt j = s.slotAt k ↔
      s.tail + j < s.cfg.modulus ∧ s.cfg.modulus ≤ s.tail + k ∧ k - j = s.cfg.rWrap := by
  have hcap := capacity_lt_modulus s.cfg
  rcases Nat.lt_or_ge (s.tail + k) s.cfg.modulus with hbefore | hafter
  · have hne : s.slotAt j ≠ s.slotAt k := by
      rw [slotAt_of_lt hbefore, slotAt_of_lt (by omega)]
      exact mod_ne_mod_of_lt (by omega) (by omega)
    exact iff_of_false hne (by omega)
  rcases Nat.lt_or_ge (s.tail + j) s.cfg.modulus with hj | hj
  · have hdist : s.tail + j - (s.tail + k - s.cfg.modulus) = s.cfg.modulus - (k - j) := by omega
    calc s.slotAt j = s.slotAt k
        ↔ s.tail + k - s.cfg.modulus ≡ s.tail + j [MOD s.cfg.capacity] := by
          rw [slotAt_of_lt hj, slotAt_of_le hafter (by omega)]
          exact eq_comm
      _ ↔ s.cfg.capacity ∣ s.cfg.modulus - (k - j) := by
          rw [Nat.modEq_iff_dvd' (by omega), hdist]
      _ ↔ k - j = s.cfg.rWrap := capacity_dvd_modulus_sub_iff (by omega)
      _ ↔ _ := ⟨fun h => ⟨hj, hafter, h⟩, fun ⟨_, _, h⟩ => h⟩
  · have hne : s.slotAt j ≠ s.slotAt k := by
      rw [slotAt_of_le hafter (by omega), slotAt_of_le hj (by omega)]
      exact mod_ne_mod_of_lt (by omega) (by omega)
    exact iff_of_false hne (by omega)

theorem hazard_eq_true_iff (s : State) : s.hazard = true ↔
    s.cfg.rWrap ≠ 0 ∧ 0 < s.head ∧ s.head < s.tail ∧ s.cfg.rWrap < s.occ := by
  simp [State.hazard, and_assoc]

/-- R87. Of the elements before the wrap and those after it, some two are `R_WRAP` apart as soon as more than `R_WRAP`
are outstanding: the last before the wrap and one after it, or else one before it and the youngest. -/
theorem hazard_iff_exists_shared_slot (hr : s.inRange = true) (hle : s.occ ≤ s.cfg.capacity) :
    s.hazard = true ↔ ∃ j k, j < k ∧ k < s.occ ∧ s.slotAt j = s.slotAt k := by
  obtain ⟨hhead, htail, -, -⟩ := inRange_iff.mp hr
  rw [hazard_eq_true_iff]
  constructor
  · rintro ⟨hrw, hpos, hlt, hocc⟩
    have hocceq := occ_of_lt hlt htail
    obtain ⟨j, hj⟩ : ∃ j, j = min (s.cfg.modulus - s.tail - 1) (s.occ - 1 - s.cfg.rWrap) := ⟨_, rfl⟩
    refine ⟨j, j + s.cfg.rWrap, by omega, by omega, ?_⟩
    exact (slotAt_eq_slotAt_iff htail (by omega) (by omega)).mpr (by omega)
  · rintro ⟨j, k, hjk, hk, heq⟩
    obtain ⟨-, hwrap, hdist⟩ := (slotAt_eq_slotAt_iff htail hjk (hk.trans_le hle)).mp heq
    have hlt : s.head < s.tail := by
      by_contra hge
      have hocceq := occ_of_le (Nat.le_of_not_lt hge) hhead
      omega
    have hocceq := occ_of_lt hlt htail
    omega

theorem hazard_eq_false_of_wrapSafe (hw : s.cfg.WrapSafe) : s.hazard = false := by
  rw [← Bool.not_eq_true, hazard_eq_true_iff]
  exact fun ⟨hrw, _⟩ => hrw hw

/-- Settles O45, by the distance of two elements in one slot. -/
theorem hazardIsSharedSlot : Obligations.HazardIsSharedSlot := fun s hr hle =>
  ⟨(hazard_eq_true_iff s).symm.trans (hazard_iff_exists_shared_slot hr hle), hazard_iff_exists_shared_slot hr hle,
    hazard_eq_false_of_wrapSafe⟩

/-! ## The PUT at the counter wrap -/

/-- The slot sequence starts again at 0 with the last multiple of `CAPACITY` below `M`. -/
theorem idx_modulus_sub_rWrap (c : Config) : Counter.idx c (c.modulus - c.rWrap) = 0 :=
  Nat.mod_eq_zero_of_dvd (Nat.dvd_sub_mod c.modulus)

theorem contents_getElem? {k : Nat} (hk : k < s.occ) :
    s.contents[k]? = some (Memory.read s.store (s.slotAt k)) := by
  simp [State.contents, hk]

/-- Settles O46: with `head = 0` the element `R_WRAP` places before the new one lies in slot 0 too, and is outstanding.
-/
theorem putAtTheCounterWrapOverwrites : Obligations.PutAtTheCounterWrapOverwrites := by
  intro v s hr hrw hhead htail0 hge hlt
  obtain ⟨-, htail, hwf, -⟩ := inRange_iff.mp hr
  have hcap := capacity_lt_modulus s.cfg
  have hocceq : s.occ = s.head + s.cfg.modulus - s.tail := occ_of_lt (by omega) htail
  have hinc : Counter.inc s.cfg s.head = 1 := by rw [hhead, inc_of_lt (by omega)]
  have hnumber : (s.tail + (s.occ - s.cfg.rWrap)) % s.cfg.modulus = s.cfg.modulus - s.cfg.rWrap := by
    rw [show s.tail + (s.occ - s.cfg.rWrap) = s.cfg.modulus - s.cfg.rWrap by omega, Nat.mod_eq_of_lt (by omega)]
  have hslot : s.slotAt (s.occ - s.cfg.rWrap) = s.writeSlot := by
    rw [State.slotAt, hnumber, idx_modulus_sub_rWrap, State.writeSlot, hhead, idx_zero]
  have hocc := occ_putOk hr hlt v
  refine ⟨_, exec_put_of_occ_ne_capacity v hlt.ne, rfl, hocc, (hazard_eq_true_iff _).mpr ?_,
    s.occ - s.cfg.rWrap, by omega, hnumber, hslot, ?_⟩
  · rw [hocc]
    simp only [cfg_report, head_report, tail_report, cfg_advanceHead, head_advanceHead, tail_advanceHead, hinc]
    omega
  · rw [contents_getElem? (by omega)]
    exact congrArg some ((congrArg (Memory.read _) hslot).trans (read_write_same hwf _ v))

end Sys2Proof.Machine

/-! PROOFS. The data transfer operations (spec/41_data_transfer.md): PEEK, GET and PUT one by one (R100 to R102), the
operations as those of an ideal queue (R91), PUTs on a full buffer (R103), and GETs that drain the buffer (R105). -/

namespace Sys2Proof.Machine

open StateLaws CounterLaws MemoryLaws OpsLaws

variable {s t : State} {i : Instr}

/-! ## When a PUT makes two elements share a slot -/

/-- After a PUT the condition of R87 holds where it held before, or where the new element lies in the slot of an
outstanding one: the new element is the one behind the last. -/
theorem hazard_advanceHead_iff (hr : s.inRange = true) (hlt : s.occ < s.cfg.capacity) :
    s.advanceHead.hazard = true ↔ s.hazard = true ∨ ∃ k < s.occ, s.slotAt k = s.writeSlot := by
  have hocc : s.advanceHead.occ = s.occ + 1 := occ_advanceHead hr hlt
  have hslot : ∀ k, s.advanceHead.slotAt k = s.slotAt k := fun _ => rfl
  rw [hazard_iff_exists_shared_slot (inRange_advanceHead hr) (hocc.trans_le hlt),
    hazard_iff_exists_shared_slot hr hlt.le, ← slotAt_occ hr, hocc]
  simp only [hslot]
  constructor
  · rintro ⟨j, k, hjk, hk, heq⟩
    rcases Nat.lt_succ_iff_lt_or_eq.mp hk with hold | rfl
    · exact .inl ⟨j, k, hjk, hold, heq⟩
    · exact .inr ⟨j, hjk, heq⟩
  · rintro (⟨j, k, hjk, hk, heq⟩ | ⟨k, hk, heq⟩)
    · exact ⟨j, k, hjk, hk.trans (Nat.lt_succ_self _), heq⟩
    · exact ⟨k, s.occ, hk, Nat.lt_succ_self _, heq⟩

theorem slotAt_ne_writeSlot (hr : s.inRange = true) (hlt : s.occ < s.cfg.capacity)
    (hz : s.advanceHead.hazard = false) : ∀ k < s.occ, s.slotAt k ≠ s.writeSlot := by
  rw [← Bool.not_eq_true, hazard_advanceHead_iff hr hlt] at hz
  exact fun k hk heq => hz (.inr ⟨k, hk, heq⟩)

theorem exists_slotAt_eq_writeSlot (hr : s.inRange = true) (hlt : s.occ < s.cfg.capacity)
    (hbefore : s.hazard = false) (hafter : s.advanceHead.hazard = true) :
    ∃ k < s.occ, s.slotAt k = s.writeSlot :=
  ((hazard_advanceHead_iff hr hlt).mp hafter).resolve_left (Bool.eq_false_iff.mp hbefore)

/-! ## Each operation refines the ideal queue -/

/-- Settles O47: the one case in which an operation does not refine the queue is a PUT into the slot of an outstanding
element, after which the condition of R87 holds. -/
theorem eachOperationRefinesTheQueue : Obligations.EachOperationRefinesTheQueue := by
  intro i s t hinv h hz
  obtain ⟨hr, hle, -⟩ := inv_iff.mp hinv
  refine exec_refines h hinv fun hput hocc => slotAt_ne_writeSlot hr (lt_of_le_of_ne hle hocc) ?_
  obtain ⟨v, rfl⟩ := hput
  have ht := hz ⟨v, rfl⟩
  rw [exec_put_of_occ_ne_capacity v hocc] at h
  cases h
  exact ht

/-! ## PEEK -/

theorem isEmpty_eq_true_iff_head_eq_tail (hr : s.inRange = true) : s.isEmpty = true ↔ s.head = s.tail := by
  obtain ⟨hhead, htail, -, -⟩ := inRange_iff.mp hr
  rw [isEmpty_eq_true_iff, occ_eq_zero_iff hhead htail]

theorem queryAnswer_peek (hr : s.inRange = true) : s.queryAnswer .peek =
    .element (if s.head = s.tail then 0#8 else Memory.read s.store (s.tail % s.cfg.capacity)) := by
  simp only [State.queryAnswer, isEmpty_eq_true_iff_head_eq_tail hr]
  rfl

/-- Settles O15: PEEK only answers, so a second PEEK and a GET find the block as the first PEEK did. -/
theorem peekAnswersOldestElement : Obligations.PeekAnswersOldestElement := by
  refine ⟨fun d => decode_opcodeOf_append (i := .peek) d nofun, fun s hr => ?_⟩
  obtain ⟨t, ht, hblock, hsurr, hanswer⟩ := exec_query_answers s (i := .peek) rfl
  have hresponse : t.response = some (s.queryAnswer .peek) := hanswer.1
  refine ⟨t, ht, hblock, hsurr, queryAnswer_peek hr ▸ hanswer, ⟨_, exec_of_isQuery rfl, ?_⟩, fun hne => ?_⟩
  · rw [response_respond, queryAnswer_congr (exec_cfg ht) hblock, hresponse]
  · have hocc : t.occ ≠ 0 := by
      rw [occ_of_sameBlock (exec_cfg ht) hblock, ne_eq, ← isEmpty_eq_true_iff, isEmpty_eq_true_iff_head_eq_tail hr]
      exact hne
    refine ⟨_, exec_get_of_occ_ne_zero hocc, ?_⟩
    rw [hresponse, ← queryAnswer_congr (exec_cfg ht) hblock, State.queryAnswer,
      if_neg (mt (isEmpty_eq_true_iff t).mp hocc)]
    rfl

/-! ## GET -/

/-- A status code fits the response word: GET and PUT put the code they report on the port. -/
theorem answers_report {u : State} (st : Status) (hu : u.responses = s.responses) :
    s.answers (u.report st) (.status (statusCode st)) :=
  ⟨rfl, congrArg (· ++ [Result.status (statusCode st)]) hu, rfl,
    Nat.mod_eq_of_lt (lt_two_pow_responseWidth (BitVec.isLt _) (.inr (.inr le_rfl)))⟩

/-- After a GET there is room for an element. -/
theorem exec_put_after_getOk (hr : s.inRange = true) (hocc : s.occ ≠ 0) (hfull : s.isFull = true) (e : Element) :
    ((s.setOut e).advanceTail.report .ok).isFull = false ∧
      ∀ v, ∃ u, exec (.put v) ((s.setOut e).advanceTail.report .ok) = .next u ∧
        u.response = some (.status (statusCode .ok)) := by
  have hne : ((s.setOut e).advanceTail.report .ok).occ ≠ s.cfg.capacity := by
    rw [occ_getOk hr hocc, ← (isFull_eq_true_iff s).mp hfull]
    omega
  exact ⟨beq_false_of_ne hne, fun v => ⟨_, exec_put_of_occ_ne_capacity v hne, rfl⟩⟩

/-- Settles O16, by GET's two outcomes. -/
theorem getRemovesOldestElement : Obligations.GetRemovesOldestElement := by
  refine ⟨fun d => decode_opcodeOf_append (i := .get) d nofun, fun s hr hne => ?_, fun s _ heq => ?_⟩
  · obtain ⟨hhead, htail, -, -⟩ := inRange_iff.mp hr
    have hocc : s.occ ≠ 0 := mt (occ_eq_zero_iff hhead htail).mp hne
    have h := exec_get_of_occ_ne_zero hocc
    refine ⟨_, h, exec_sameSurroundings h, rfl, rfl, rfl, answers_report .ok rfl, rfl, rfl, fun _ => rfl, ?_,
      fun hfull => exec_put_after_getOk hr hocc hfull _⟩
    rw [occ_getOk hr hocc, Nat.sub_add_cancel (Nat.pos_of_ne_zero hocc)]
  · have h := exec_get_of_occ_eq_zero (occ_eq_zero_of_head_eq_tail heq)
    exact ⟨_, h, exec_sameSurroundings h, rfl, answers_report .empty rfl, rfl, rfl, rfl, rfl, fun _ => rfl⟩

/-! ## PUT -/

/-- Settles O17, by PUT's two outcomes; a slot written twice is what `hazard_advanceHead_iff` says. -/
theorem putAppendsUnlessFull : Obligations.PutAppendsUnlessFull := by
  refine ⟨fun v => decode_encode (.put v), fun v s hr hne => ?_, fun v s hfull => ?_⟩
  · obtain ⟨-, -, hwf, -⟩ := inRange_iff.mp hr
    have h := exec_put_of_occ_ne_capacity v hne
    refine ⟨_, h, exec_sameSurroundings h, read_write_same hwf _ v, fun a ha => read_write_of_ne hwf v ha, rfl, rfl,
      answers_report .ok rfl, rfl, rfl, fun hle => occ_putOk hr (lt_of_le_of_ne hle hne) v, fun hcap heq => ?_,
      fun hle => slotAt_ne_writeSlot hr (lt_of_le_of_ne hle hne),
      fun hle => exists_slotAt_eq_writeSlot hr (lt_of_le_of_ne hle hne)⟩
    have hocc : s.occ = 0 := occ_eq_zero_of_head_eq_tail heq
    refine (isFull_eq_true_iff _).mpr ((occ_putOk hr (by omega) v).trans ?_)
    exact (congrArg (· + 1) hocc).trans hcap.symm
  · have h := exec_put_of_occ_eq_capacity v hfull
    exact ⟨_, h, exec_sameSurroundings h, rfl, answers_report .full rfl, rfl, rfl, rfl, rfl, fun _ => rfl⟩

/-! ## Operations that fail one after another -/

/-- What a run of failures leaves: the status of the last of them, and one response for each; nothing else is written
(R146). -/
theorem performAll_cons_of_fails (st : Status) {ops : List Instr} (hfail : ∀ j ∈ i :: ops, ∀ u : State,
      u.cfg = s.cfg → u.occ = s.occ → exec j u = .next (u.report st)) :
    performAll (i :: ops) s = .next { s.report st with
      responses := s.responses ++ List.replicate (ops.length + 1) (.status (statusCode st)) } := by
  induction ops generalizing i s with
  | nil => exact performAll_cons (hfail i List.mem_cons_self s rfl rfl)
  | cons j ops ih =>
    obtain ⟨hi, hrest⟩ := List.forall_mem_cons.mp hfail
    rw [performAll_cons (hi s rfl rfl), ih (s := s.report st) hrest, responses_report, List.append_assoc]
    rfl

/-- Settles O18: every PUT fails, and a failure leaves the buffer full. -/
theorem fullBufferRejectsEveryPut : Obligations.FullBufferRejectsEveryPut := by
  intro vs s hfull
  cases vs with
  | nil => exact ⟨s, rfl, (List.append_nil _).symm, rfl, rfl, rfl, rfl, rfl, rfl, absurd rfl, rfl, rfl, rfl, rfl, rfl⟩
  | cons v vs =>
    have hrun := performAll_cons_of_fails (s := s) (i := .put v) (ops := vs.map .put) .full
      (List.forall_mem_map (l := v :: vs).mpr fun w _ u hcfg hocc =>
        exec_put_of_occ_eq_capacity w (by rw [hocc, hfull, hcfg]))
    rw [List.length_map] at hrun
    exact ⟨_, hrun, rfl, rfl, rfl, rfl, rfl, rfl, rfl, fun _ => rfl, rfl, rfl, rfl, rfl, rfl⟩

/-! ## GETs drain the contents -/

/-- GET takes the first of the contents. -/
theorem exec_get_of_contents_eq_cons {e : Element} {es : List Element} (hr : s.inRange = true)
    (hc : s.contents = e :: es) : ∃ t, exec .get s = .next t ∧ t.inRange = true ∧ t.out = e ∧ t.contents = es ∧
      t.response = some (.status (statusCode .ok)) ∧ t.head = s.head := by
  have hocc : s.occ ≠ 0 := by
    rw [← length_contents, hc]
    exact Nat.succ_ne_zero _
  have h := exec_get_of_occ_ne_zero hocc
  rw [contents_eq_cons hr hocc] at hc
  injection hc with hhead htail
  exact ⟨_, h, exec_keeps_inRange h hr, hhead, htail, rfl, rfl⟩

/-- As many GETs as the contents have entries in `es` leave what stands behind these. -/
theorem performAll_gets_of_contents_eq_append {es rest : List Element} (hr : s.inRange = true)
    (hc : s.contents = es ++ rest) : ∃ t, performAll (List.replicate es.length .get) s = .next t ∧
      t.inRange = true ∧ t.contents = rest ∧ t.head = s.head := by
  induction es generalizing s with
  | nil => exact ⟨s, rfl, hr, hc, rfl⟩
  | cons e es ih =>
    obtain ⟨u, hu, hur, -, huc, -, huhead⟩ := exec_get_of_contents_eq_cons hr hc
    obtain ⟨t, ht, htr, htc, hthead⟩ := ih hur huc
    exact ⟨t, (performAll_cons hu).trans ht, htr, htc, hthead.trans huhead⟩

theorem performAll_gets_out {k : Nat} (hr : s.inRange = true) (hk : k < s.contents.length) :
    ∃ t, performAll (List.replicate (k + 1) .get) s = .next t ∧ t.out = s.contents[k] ∧
      t.response = some (.status (statusCode .ok)) ∧ t.head = s.head := by
  have hc : s.contents = s.contents.take k ++ s.contents[k] :: s.contents.drop (k + 1) := by
    rw [List.cons_getElem_drop_succ, List.take_append_drop]
  obtain ⟨u, hu, hur, huc, huhead⟩ := performAll_gets_of_contents_eq_append hr hc
  rw [List.length_take_of_le hk.le] at hu
  obtain ⟨t, ht, -, hout, -, hresponse, hhead⟩ := exec_get_of_contents_eq_cons hur huc
  refine ⟨t, ?_, hout, hresponse, hhead.trans huhead⟩
  rw [List.replicate_succ', performAll_append hu]
  exact performAll_cons ht

/-- `occ()` GETs leave the buffer empty, with `tail` at the write counter. -/
theorem performAll_gets_drain (hr : s.inRange = true) : ∃ t,
    performAll (List.replicate s.occ .get) s = .next t ∧ t.occ = 0 ∧ t.tail = s.head := by
  obtain ⟨t, ht, htr, htc, hthead⟩ := performAll_gets_of_contents_eq_append hr (List.append_nil _).symm
  rw [length_contents] at ht
  have hocc : t.occ = 0 := by rw [← length_contents, htc, List.length_nil]
  obtain ⟨hhead, htail, -, -⟩ := inRange_iff.mp htr
  exact ⟨t, ht, hocc, ((occ_eq_zero_iff hhead htail).mp hocc).symm.trans hthead⟩

theorem performAll_gets_of_occ_eq_zero (h : s.occ = 0) (n : Nat) : ∃ u,
    performAll (List.replicate (n + 1) .get) s = .next u ∧ u.response = some (.status (statusCode .empty)) ∧
      u.out = s.out ∧ u.head = s.head ∧ u.tail = s.tail := by
  refine ⟨_, performAll_cons_of_fails (i := .get) .empty fun j hj u _ hocc => ?_, rfl, rfl, rfl, rfl⟩
  obtain rfl := List.eq_of_mem_replicate (n := n + 1) hj
  exact exec_get_of_occ_eq_zero (hocc.trans h)

/-- Settles O19: each GET takes the first of the contents, and on the drained buffer every GET fails. -/
theorem getsDrainTheContentsInOrder : Obligations.GetsDrainTheContentsInOrder := by
  refine fun s hr => ⟨length_contents s, fun k hk => performAll_gets_out hr hk, fun n => ?_⟩
  obtain ⟨t, ht, hocc, htail⟩ := performAll_gets_drain hr
  obtain ⟨u, hu, hresponse, hout, hhead, hutail⟩ := performAll_gets_of_occ_eq_zero hocc n
  exact ⟨t, u, ht, hu, hresponse, hout, hhead, hutail, htail⟩

end Sys2Proof.Machine

/-! PROOFS. The control and status operations (spec/42_control_status.md): INIT and REFRESH (R120, R121), GETSTATUS
(R122), the status after each operation (R123), and that no operation can tell INIT from REFRESH (R171). -/

namespace Sys2Proof.Machine

open StateLaws CounterLaws MemoryLaws OpsLaws

variable {s t : State} {i : Instr}

/-! ## INIT and REFRESH -/

theorem isFull_eq_false_of_occ_eq_zero (h : s.occ = 0) : s.isFull = false := by
  rw [isFull_eq_decide, h]
  exact decide_eq_false (Nat.ne_of_lt s.cfg.capacity_pos)

/-- An operation that returns nothing puts 0 on the port. -/
theorem answers_respond_nothing (s : State) : s.answers (s.respond .nothing) .nothing :=
  answers_respond (Nat.two_pow_pos _)

/-- Settles O22: INIT writes constants, the same that a reset writes. -/
theorem initClearsTheBlock : Obligations.InitClearsTheBlock := by
  refine ⟨fun d => decode_opcodeOf_append (i := .init) d nofun, fun s => ?_⟩
  have hanswer : s.answers (s.initialise.respond .nothing) .nothing := answers_respond_nothing s.initialise
  have hocc : (s.initialise.respond .nothing).occ = 0 := occ_rewind s
  exact ⟨_, rfl, ⟨rfl, rfl, rfl, rfl, rfl⟩, hanswer, rsp_of_answers hanswer, rfl, rfl, read_nil, rfl, rfl, hocc,
    (isEmpty_eq_true_iff _).mpr hocc, isFull_eq_false_of_occ_eq_zero hocc, inv_initialise s,
    ⟨_, rfl, fun _ => rfl, rfl, rfl, rfl, rfl, rfl⟩, fun _ => rfl, rfl, rfl, rfl, rfl, rfl⟩

/-- Settles O23: REFRESH writes the constants of INIT and not the store; the queries answer an empty buffer. -/
theorem refreshKeepsTheStore : Obligations.RefreshKeepsTheStore := by
  refine ⟨fun d => decode_opcodeOf_append (i := .refresh) d nofun, fun s => ?_⟩
  have hanswer : s.answers (s.rewind.respond .nothing) .nothing := answers_respond_nothing s.rewind
  have hocc : (s.rewind.respond .nothing).occ = 0 := occ_rewind s
  have hempty : (s.rewind.respond .nothing).isEmpty = true := (isEmpty_eq_true_iff _).mpr hocc
  exact ⟨_, rfl, ⟨rfl, rfl, rfl, rfl, rfl⟩, hanswer, rsp_of_answers hanswer, rfl, rfl, rfl, rfl, rfl, fun _ => rfl,
    hocc, hempty, isFull_eq_false_of_occ_eq_zero hocc, exec_count_of_occ_eq_zero hocc,
    ⟨_, rfl, congrArg (fun b => some (Result.flag b)) hempty⟩⟩

/-! ## The status -/

/-- Settles O24: a query leaves the block, and GETSTATUS answers a part of it. -/
theorem getstatusIsSticky : Obligations.GetstatusIsSticky := by
  refine ⟨fun d => decode_opcodeOf_append (i := .getstatus) d nofun, fun s => ?_⟩
  obtain ⟨t, ht, hblock, hsurr, hanswer⟩ := exec_query_answers s (i := .getstatus) rfl
  refine ⟨t, ht, hblock, hsurr, hanswer, fun qs hqs => ?_⟩
  obtain ⟨u, hu, hublock, hcfg, -⟩ := performAll_queries t hqs
  obtain ⟨hresponse, -⟩ := hanswer
  refine ⟨u, _, hu, exec_of_isQuery rfl, ?_⟩
  rw [response_respond, queryAnswer_congr hcfg hublock, queryAnswer_congr (exec_cfg ht) hblock, hresponse]

/-- Settles O25, by the seven things an operation can do. -/
theorem statusFollowsTheOutcome : Obligations.StatusFollowsTheOutcome := by
  intro i s t h
  cases performs_of_exec h with
  | query hq r =>
    cases i with
    | count | isfull | isempty | peek | getstatus => rfl
    | init | refresh | get | put => cases hq
  | init | refresh => rfl
  | getEmpty hocc => exact (if_neg (not_not_intro hocc)).symm
  | getOk hocc => exact (if_pos hocc).symm
  | putFull v hocc => exact (if_neg (not_not_intro hocc)).symm
  | putOk v hocc => exact (if_pos hocc).symm

/-! ## Two stores that hold the same contents -/

/-- What a PUT makes of the contents, also where it writes the slot of an outstanding element. -/
theorem contents_write_advanceHead_eq_mapIdx (v : Element) (hr : s.inRange = true) (hlt : s.occ < s.cfg.capacity) :
    ({ s with store := Memory.write s.store s.writeSlot v } : State).advanceHead.contents =
      s.contents.mapIdx (fun k e => if s.slotAt k = s.writeSlot then v else e) ++ [v] := by
  obtain ⟨-, -, hwf, -⟩ := inRange_iff.mp hr
  have hocc : ({ s with store := Memory.write s.store s.writeSlot v } : State).advanceHead.occ = s.occ + 1 :=
    occ_advanceHead (inRange_write_writeSlot v hr) hlt
  rw [State.contents, hocc, List.range_succ, List.map_append]
  congr 1
  · refine List.ext_getElem (by simp) fun k _ _ => ?_
    rw [List.getElem_map, List.getElem_range, List.getElem_mapIdx]
    simp only [State.contents, List.getElem_map, List.getElem_range]
    exact read_write hwf _ v _
  · exact congrArg (fun e => [e]) ((congrArg (Memory.read _) (slotAt_occ hr)).trans (read_write_same hwf _ v))

/-- The state with another store in the place of its own. -/
def State.withStore (s : State) (m : List Host.Cell) : State := { s with store := m }

/-- With the store `m` the block could be in the same state, and would hold the same contents: the two stores differ at
most in slots of no outstanding element. -/
def State.HoldsSameIn (s : State) (m : List Host.Cell) : Prop :=
  (s.withStore m).inRange = true ∧ (s.withStore m).contents = s.contents

/-- A query answers what it answers on the ideal queue, so it does not see the other slots. -/
theorem queryAnswer_withStore {m : List Host.Cell} (hr : s.inRange = true) (hm : s.HoldsSameIn m)
    (hq : i.isQuery = true) : (s.withStore m).queryAnswer i = s.queryAnswer i := by
  obtain ⟨hmr, hmc⟩ := hm
  have hideal : (s.withStore m).ideal = s.ideal := congrArg (Ideal.mk · s.lastStatus s.out) hmc
  have hperform := ideal_perform_query hmr hq
  rw [hideal] at hperform
  exact congrArg Prod.snd (hperform.symm.trans (ideal_perform_query hr hq))

/-- An operation does the same with either store, and leaves two stores that hold the same contents again. -/
theorem exec_withStore {m : List Host.Cell} (hinv : s.inv = true) (hm : s.HoldsSameIn m) (h : exec i s = .next t) :
    ∃ m', exec i (s.withStore m) = .next (t.withStore m') ∧ t.HoldsSameIn m' := by
  obtain ⟨hr, hle, -⟩ := inv_iff.mp hinv
  obtain ⟨hmr, hmc⟩ := hm
  suffices hs : ∃ m', exec i (s.withStore m) = .next (t.withStore m') ∧ (t.withStore m').contents = t.contents by
    obtain ⟨m', hexec, hcontents⟩ := hs
    exact ⟨m', hexec, exec_keeps_inRange hexec hmr, hcontents⟩
  cases performs_of_exec h with
  | query hq r =>
    rw [exec_of_isQuery hq] at h ⊢
    rw [queryAnswer_withStore hr ⟨hmr, hmc⟩ hq]
    cases h
    exact ⟨m, rfl, hmc⟩
  | init => exact ⟨[], rfl, rfl⟩
  | refresh => exact ⟨m, rfl, (contents_rewind (s.withStore m)).trans (contents_rewind s).symm⟩
  | getEmpty hocc => exact ⟨m, exec_get_of_occ_eq_zero hocc, hmc⟩
  | getOk hocc =>
    rw [contents_eq_cons hr hocc, contents_eq_cons hmr hocc] at hmc
    injection hmc with hhead htail
    rw [← hhead]
    exact ⟨m, exec_get_of_occ_ne_zero (s := s.withStore m) hocc, htail⟩
  | putFull v hocc => exact ⟨m, exec_put_of_occ_eq_capacity v hocc, hmc⟩
  | putOk v hocc =>
    have hlt : s.occ < s.cfg.capacity := lt_of_le_of_ne hle hocc
    have hput := contents_write_advanceHead_eq_mapIdx v hmr hlt
    rw [hmc] at hput
    exact ⟨_, exec_put_of_occ_ne_capacity (s := s.withStore m) v hocc,
      hput.trans (contents_write_advanceHead_eq_mapIdx v hr hlt).symm⟩

theorem performAll_withStore (ops : List Instr) {m : List Host.Cell} (hinv : s.inv = true) (hm : s.HoldsSameIn m) :
    ∃ t m', performAll ops s = .next t ∧ performAll ops (s.withStore m) = .next (t.withStore m') := by
  induction ops generalizing s m with
  | nil => exact ⟨s, m, rfl, rfl⟩
  | cons i ops ih =>
    obtain ⟨u, hu⟩ := exists_exec_eq_next i s
    obtain ⟨n, hn, hsame⟩ := exec_withStore hinv hm hu
    rw [performAll_cons hu, performAll_cons hn]
    exact ih (exec_keeps_inv hu hinv) hsame

/-- Settles O26: REFRESH leaves what INIT leaves but for the store, and both stores hold the empty contents. -/
theorem refreshAndInitCannotBeToldApart : Obligations.RefreshAndInitCannotBeToldApart := by
  intro s hr
  refine ⟨s.initialise.respond .nothing, (s.initialise.respond .nothing).withStore s.store, rfl, rfl, fun ops => ?_⟩
  have hsame : (s.initialise.respond .nothing).HoldsSameIn s.store :=
    ⟨inRange_rewind hr, (contents_rewind s).trans (contents_initialise s).symm⟩
  obtain ⟨t, m, ht, hm⟩ := performAll_withStore (s := s.initialise.respond .nothing) ops (inv_initialise s) hsame
  exact ⟨t, t.withStore m, ht, hm, rfl, rfl, rfl, rfl, rfl⟩

end Sys2Proof.Machine

/-! PROOFS. The outcomes of an operation and of a step (spec/60_exceptions.md): every operation completes (R140), a
failure writes only the status (R146), the block cannot tell its callers apart (R149), only a reserved opcode stops a run
(R65), and what a step does to a quiescent buffer (R150, R165). -/

namespace Sys2Proof.Machine

open StateLaws CounterLaws MemoryLaws OpsLaws QuiescenceLaws

variable {s t u : State} {i : Instr} {c : Command} {op : Opcode}

/-! ## Every operation answers -/

/-- What stands on the response port fits it. -/
theorem value_lt_of_answers {r : Result} (h : s.answers t r) : r.value < 2 ^ t.cfg.responseWidth :=
  rsp_of_answers h ▸ t.rsp.isLt

theorem exists_answers_of_exec (h : exec i s = .next t) : ∃ r, s.answers t r := by
  cases performs_of_exec h with
  | query hq =>
    obtain ⟨u, hu, -, -, hanswer⟩ := exec_query_answers s hq
    cases hu.symm.trans h
    exact ⟨_, hanswer⟩
  | init => exact ⟨.nothing, answers_respond_nothing s.initialise⟩
  | refresh => exact ⟨.nothing, answers_respond_nothing s.rewind⟩
  | getEmpty | getOk | putFull | putOk => exact ⟨_, answers_report _ rfl⟩

/-- Settles O28: every operation has a next state, and each of the seven things it can do answers once. -/
theorem everyOperationCompletes : Obligations.EveryOperationCompletes := by
  intro i s
  obtain ⟨t, ht⟩ := exists_exec_eq_next i s
  obtain ⟨r, hanswer⟩ := exists_answers_of_exec ht
  exact ⟨t, r, ht, hanswer, exec_cfg ht ▸ value_lt_of_answers hanswer⟩

/-! ## A failure -/

/-- A GET that does not answer OK has only reported EMPTY. -/
theorem eq_report_empty_of_exec_get (h : exec .get s = .next t) (hfail : t.response ≠ some (.status (statusCode .ok))) :
    t = s.report .empty := by
  cases performs_of_exec h with
  | query hq => cases hq
  | getEmpty => rfl
  | getOk => exact absurd rfl hfail

/-- A PUT that does not answer OK has only reported FULL. -/
theorem eq_report_full_of_exec_put {v : Element} (h : exec (.put v) s = .next t)
    (hfail : t.response ≠ some (.status (statusCode .ok))) : t = s.report .full := by
  cases performs_of_exec h with
  | query hq => cases hq
  | putFull => rfl
  | putOk => exact absurd rfl hfail

/-- Settles O30: a failure is `State.report` and nothing else, which writes the status it answers. -/
theorem failureWritesOnlyTheStatus : Obligations.FailureWritesOnlyTheStatus := by
  rintro i s t h (⟨rfl, hfail⟩ | ⟨⟨v, rfl⟩, hfail⟩)
  · rw [eq_report_empty_of_exec_get h hfail]
    exact ⟨rfl, rfl⟩
  · rw [eq_report_full_of_exec_put h hfail]
    exact ⟨rfl, rfl⟩

/-! ## The callers -/

@[simp] theorem rstPin_present (s : State) (a : Agent) (c : Command) : (s.present a c).rstPin = false := by
  simp [State.rstPin, State.edge]

@[simp] theorem cmdPin_present (s : State) (a : Agent) (c : Command) : (s.present a c).cmdPin = some c := by
  simp [State.cmdPin, State.edge, queue_present]

/-- The action of a presented word names no agent. -/
theorem action_present_eq (s : State) (a b : Agent) (c : Command) :
    (s.present a c).action = (s.present b c).action := by
  simp only [State.action, rstPin_present, cmdPin_present]

/-- Settles O33: the action is that of the word, and once the word is sampled nothing tells who presented it. -/
theorem callersCannotBeToldApart : Obligations.CallersCannotBeToldApart := by
  refine fun s a b c => ⟨?_, fun i hd => step_present_of_decode s a hd⟩
  rw [step, step, action_present_eq s a b, sampled_present, sampled_present]

/-! ## The stops of a step -/

theorem step_of_perform (h : s.action = .perform i) : step s = exec i s.sampled := by
  rw [step, h]

theorem step_of_reserved (h : s.action = .reserved op) : step s = .refused (.reservedOpcode op) := by
  rw [step, h]

/-- A step is refused for a reserved opcode, and otherwise has a next state. -/
theorem exists_step_eq (s : State) :
    (∃ op, s.action = .reserved op ∧ step s = .refused (.reservedOpcode op)) ∨
      (∀ op, s.action ≠ .reserved op) ∧ ∃ t, step s = .next t := by
  cases ha : s.action with
  | reset => exact .inr ⟨nofun, _, by rw [step, ha]⟩
  | idle => exact .inr ⟨nofun, _, by rw [step, ha]⟩
  | perform i =>
    obtain ⟨t, ht⟩ := exists_exec_eq_next i s.sampled
    exact .inr ⟨nofun, t, (step_of_perform ha).trans ht⟩
  | reserved op => exact .inl ⟨op, rfl, step_of_reserved ha⟩

/-- Only a slot outside the store is a fault, and a slot index never is (R43). -/
theorem step_ne_fault (s : State) (f : Fault) : step s ≠ .fault f := by
  obtain ⟨op, -, hstep⟩ | ⟨-, t, hstep⟩ := exists_step_eq s
  · rw [hstep]; nofun
  · rw [hstep]; nofun

theorem step_eq_refused_iff {r : Refusal} :
    step s = .refused r ↔ ∃ op, s.action = .reserved op ∧ r = .reservedOpcode op := by
  constructor
  · intro h
    obtain ⟨op, ha, hstep⟩ | ⟨-, t, hstep⟩ := exists_step_eq s
    · cases hstep.symm.trans h
      exact ⟨op, ha, rfl⟩
    · cases hstep.symm.trans h
  · rintro ⟨op, ha, rfl⟩
    exact step_of_reserved ha

/-- The action is a reserved opcode exactly when a word that the decoder rejects is presented with `rst = 0`. -/
theorem action_eq_reserved_iff : s.action = .reserved op ↔
    s.rstPin = false ∧ ∃ c, s.cmdPin = some c ∧ decode c = .error (.reservedOpcode op) := by
  constructor
  · intro h
    unfold State.action at h
    split at h
    · cases h
    · split at h
      · cases h
      · split at h <;> cases h
        exact ⟨eq_false_of_ne_true ‹_›, _, ‹_›, ‹_›⟩
  · rintro ⟨hr, c, hc, hd⟩
    rw [action_of_cmd hr hc, hd]

/-- A word is rejected by its four high bits as a number (R65). -/
theorem decode_eq_reserved_iff_div : decode c = .error (.reservedOpcode op) ↔
    9 ≤ c.toNat / 256 ∧ op.toNat = c.toNat / 256 := by
  rw [decode_eq_reserved_iff, ← toNat_opcodeField]
  constructor
  · rintro ⟨rfl, hle⟩
    exact ⟨hle, rfl⟩
  · rintro ⟨hle, hop⟩
    exact ⟨(BitVec.eq_of_toNat_eq hop).symm, hop ▸ hle⟩

/-- Settles O36: no operation faults or is refused, so a step stops a run by the decoder's rejection alone. -/
theorem onlyReservedOpcodesStopARun : Obligations.OnlyReservedOpcodesStopARun := by
  refine ⟨step_ne_fault, fun s r => ?_⟩
  simp only [step_eq_refused_iff, action_eq_reserved_iff, decode_eq_reserved_iff_div]
  constructor
  · rintro ⟨op, ⟨hr, c, hc, hle, hop⟩, rfl⟩
    exact ⟨hr, c, op, hc, hle, hop, rfl⟩
  · rintro ⟨hr, c, op, hc, hle, hop, rfl⟩
    exact ⟨op, ⟨hr, c, hc, hle, hop⟩, rfl⟩

/-! ## Where the buffer is quiescent -/

theorem rewinds_iff : s.rewinds = true ↔
    s.action = .reset ∨ s.action = .perform .init ∨ s.action = .perform .refresh := by
  simp [State.rewinds, or_assoc]

/-- With no operation left, the callers present none. -/
theorem callerPresents_of_queues_nil (hp : s.producerQ = []) (hc : s.consumerQ = []) : s.callerPresents = false := by
  unfold State.callerPresents State.cmdPin
  cases s.edge.grant with
  | none => rfl
  | some a =>
    cases a with
    | producer => simp [State.queue, hp]
    | consumer => simp [State.queue, hc]
    | supervisor => rfl

theorem quiescentFor_of_queues_nil (n : Nat) (hp : s.producerQ = []) (hc : s.consumerQ = []) :
    State.quiescentFor n s = true := by
  induction n generalizing s with
  | zero => rfl
  | succ n ih =>
    have hcalls := callerPresents_of_queues_nil hp hc
    obtain ⟨hsp, hsc⟩ := callers_sampled hcalls
    simp [State.quiescentFor, hcalls, ih (hsp.trans hp) (hsc.trans hc)]

/-- The supervisor's INIT or REFRESH, served next, ends the quiescence before any caller is served. -/
theorem quiescent_present_supervisor (s : State) (hd : decode c = .ok .init ∨ decode c = .ok .refresh) :
    (s.present .supervisor c).quiescent = true := by
  have hcalls : (s.present .supervisor c).callerPresents = false := rfl
  have hact := action_of_cmd (rstPin_present s .supervisor c) (cmdPin_present s .supervisor c)
  have hrew : (s.present .supervisor c).rewinds = true := by
    rw [rewinds_iff, hact]
    obtain hd | hd := hd
    · rw [hd]; exact .inr (.inl rfl)
    · rw [hd]; exact .inr (.inr rfl)
  rw [quiescent_eq, hcalls, hrew]
  rfl

theorem callerPresents_of_quiescent (h : s.quiescent = true) : s.callerPresents = false := by
  rw [quiescent_eq, Bool.and_eq_true, Bool.not_eq_true'] at h
  exact h.1

theorem quiescent_sampled (h : s.quiescent = true) (hrew : s.rewinds = false) : s.sampled.quiescent = true := by
  rw [quiescent_eq, hrew, Bool.false_or, Bool.and_eq_true] at h
  exact h.2

/-! ## One step of a quiescent buffer -/

/-- Where no caller presents a command, the operation performed is the supervisor's. -/
theorem supervisor_of_perform (hcalls : s.callerPresents = false) (h : s.action = .perform i) :
    s.edge.grant = some .supervisor ∧ ∃ c ∈ s.supervisorQ, decode c = .ok i := by
  obtain ⟨-, a, c, ha, hq, hc, hd⟩ := command_of_perform h
  cases a with
  | producer => simp [State.callerPresents, ha, hc] at hcalls
  | consumer => simp [State.callerPresents, ha, hc] at hcalls
  | supervisor => exact ⟨ha, c, List.mem_of_mem_head? hq, hd⟩

/-- Once the edge is sampled, a step leaves the configuration and what is still to come. -/
theorem step_sameSurroundings (h : step s = .next t) : s.sampled.sameSurroundings t := by
  obtain ⟨-, rfl⟩ | ⟨-, rfl⟩ | ⟨i, -, hi⟩ := step_eq_next h
  · exact ⟨rfl, rfl, rfl, rfl, rfl⟩
  · exact ⟨rfl, rfl, rfl, rfl, rfl⟩
  · exact exec_sameSurroundings hi

theorem step_callerQueues (hcalls : s.callerPresents = false) (h : step s = .next t) :
    t.producerQ = s.producerQ ∧ t.consumerQ = s.consumerQ := by
  obtain ⟨hp, hc⟩ := callers_sampled hcalls
  exact ⟨(step_queue h .producer).trans hp, (step_queue h .consumer).trans hc⟩

/-- Up to the reset, INIT or REFRESH a quiescent buffer stays quiescent. -/
theorem step_keeps_quiescent (hs : s.quiescent = true) (hrew : s.rewinds = false) (h : step s = .next t) :
    t.quiescent = true := by
  obtain ⟨-, hp, hc, hv, hsched⟩ := step_sameSurroundings h
  exact (quiescent_congr hp hc hv hsched).trans (quiescent_sampled hs hrew)

/-- A response is that of an operation performed. -/
theorem exists_perform_of_rspValid (h : step s = .next t) (hv : t.rspValid = true) : ∃ i, s.action = .perform i := by
  obtain ⟨-, rfl⟩ | ⟨-, rfl⟩ | ⟨i, ha, -⟩ := step_eq_next h
  · cases hv
  · cases hv
  · exact ⟨i, ha⟩

theorem rstPin_of_action_reset (h : s.action = .reset) : s.rstPin = true := by
  unfold State.action at h
  split at h
  · assumption
  · split at h
    · cases h
    · split at h <;> cases h

/-- A step that neither answers nor resets is idle. -/
theorem step_sameBlock_of_silent (h : step s = .next t) (hnone : t.response = none) (hr : s.rstPin = false) :
    s.sameBlock t := by
  obtain ⟨ha, -⟩ | ⟨-, rfl⟩ | ⟨i, -, hi⟩ := step_eq_next h
  · cases hr.symm.trans (rstPin_of_action_reset ha)
  · exact sameBlock_sampled s
  · obtain ⟨r, hresponse, -⟩ := exists_answers_of_exec hi
    cases hnone.symm.trans hresponse

/-- The step of a reset, INIT or REFRESH completes, with the counters and the status of a rewound block. -/
theorem step_of_rewinds (h : s.rewinds = true) : ∃ t, step s = .next t ∧
    t.head = 0 ∧ t.tail = 0 ∧ t.lastStatus = statusCode .ok ∧ t.out = s.out := by
  obtain ha | ha | ha := rewinds_iff.mp h
  · exact ⟨s.sampled.hardReset, by rw [step, ha], rfl, rfl, rfl, out_sampled s⟩
  · exact ⟨s.sampled.initialise.respond .nothing, step_of_perform ha, rfl, rfl, rfl, out_sampled s⟩
  · exact ⟨s.sampled.rewind.respond .nothing, step_of_perform ha, rfl, rfl, rfl, out_sampled s⟩

/-- Settles O40: no caller presents a command while the buffer is quiescent, so whatever is performed is the
supervisor's. -/
theorem quiescentBufferServesOnlyTheSupervisor : Obligations.QuiescentBufferServesOnlyTheSupervisor := by
  refine ⟨fun s hp hc => quiescentFor_of_queues_nil _ hp hc, fun s c hd => quiescent_present_supervisor s hd,
    fun s t hs h => ?_⟩
  have hcalls := callerPresents_of_quiescent hs
  obtain ⟨hp, hc⟩ := step_callerQueues hcalls h
  refine ⟨hp, hc, fun hv => ?_, step_sameBlock_of_silent h, fun hrew => step_keeps_quiescent hs hrew h, fun hrew => ?_⟩
  · obtain ⟨i, ha⟩ := exists_perform_of_rspValid h hv
    obtain ⟨hgrant, -⟩ := supervisor_of_perform hcalls ha
    exact hgrant
  · obtain ⟨u, hu, hhead, htail, hstatus, -⟩ := step_of_rewinds hrew
    cases hu.symm.trans h
    exact ⟨hhead, htail, occ_eq_zero_of_head_eq_tail (hhead.trans htail.symm), hstatus⟩

/-! ## The quiescent window -/

theorem sameBlock_refl (s : State) : s.sameBlock s := ⟨fun _ => rfl, rfl, rfl, rfl, rfl, rfl⟩

theorem sameBlock_trans (hst : s.sameBlock t) (htu : t.sameBlock u) : s.sameBlock u := by
  obtain ⟨hread, hstore, hhead, htail, hstatus, hout⟩ := hst
  obtain ⟨hread', hstore', hhead', htail', hstatus', hout'⟩ := htu
  exact ⟨fun a => (hread' a).trans (hread a), hstore'.trans hstore, hhead'.trans hhead, htail'.trans htail,
    hstatus'.trans hstatus, hout'.trans hout⟩

/-- Of the supervisor's operations, all but INIT and REFRESH are queries (R150). -/
theorem isQuery_of_supervisor (h : mayIssue .supervisor i = true) (hinit : i ≠ .init) (hrefresh : i ≠ .refresh) :
    i.isQuery = true := by
  simpa [mayIssue, hinit, hrefresh] using h

/-- The supervisor has only operations of its role still to issue (R150). -/
def State.SupervisorInRole (s : State) : Prop :=
  ∀ c ∈ s.supervisorQ, ∀ i, decode c = .ok i → mayIssue .supervisor i = true

/-- Of its operations a step at most takes one away. -/
theorem step_keeps_supervisorInRole (hrole : s.SupervisorInRole) (h : step s = .next t) : t.SupervisorInRole := by
  intro c hc
  refine hrole c ?_
  have hq : t.supervisorQ = s.sampled.queue .supervisor := step_queue h .supervisor
  rw [hq, queue_sampled] at hc
  split at hc
  · exact List.mem_of_mem_tail hc
  · exact hc

/-- With the supervisor in its role and no reset, INIT or REFRESH, a step that serves no caller is idle or a query. -/
theorem step_sameBlock_of_supervisorInRole (hrole : s.SupervisorInRole) (hcalls : s.callerPresents = false)
    (hrew : s.rewinds = false) (h : step s = .next t) : s.sameBlock t := by
  have hnot := mt rewinds_iff.mpr (ne_true_of_eq_false hrew)
  obtain ⟨ha, -⟩ | ⟨-, rfl⟩ | ⟨i, ha, hi⟩ := step_eq_next h
  · exact absurd (.inl ha) hnot
  · exact sameBlock_sampled s
  · obtain ⟨-, c, hc, hd⟩ := supervisor_of_perform hcalls ha
    have hq : i.isQuery = true := by
      refine isQuery_of_supervisor (hrole c hc i hd) ?_ ?_
      · rintro rfl; exact hnot (.inr (.inl ha))
      · rintro rfl; exact hnot (.inr (.inr ha))
    exact sameBlock_trans (sameBlock_sampled s) (exec_query_sameBlock hq hi)

/-- `t` lies in the quiescent window of `s`: still quiescent with the supervisor in its role, and with the block, the
configuration and the callers' operations of `s`. -/
structure State.InWindow (s t : State) : Prop where
  quiescent : t.quiescent = true
  role : t.SupervisorInRole
  block : s.sameBlock t
  cfg : t.cfg = s.cfg
  producerQ : t.producerQ = s.producerQ
  consumerQ : t.consumerQ = s.consumerQ

theorem step_keeps_inWindow (ht : s.InWindow t) (hrew : t.rewinds = false) (h : step t = .next u) : s.InWindow u := by
  have hcalls := callerPresents_of_quiescent ht.quiescent
  obtain ⟨hp, hc⟩ := step_callerQueues hcalls h
  exact ⟨step_keeps_quiescent ht.quiescent hrew h, step_keeps_supervisorInRole ht.role h,
    sameBlock_trans ht.block (step_sameBlock_of_supervisorInRole ht.role hcalls hrew h), (step_cfg h).trans ht.cfg,
    hp.trans ht.producerQ, hc.trans ht.consumerQ⟩

/-- A run of a step or more has taken its first step and gone on from there. -/
theorem exists_step_of_run_succ (m : Host.Core) {n : Nat} {x y : m.State} (h : m.run (n + 1) x = .next y) :
    ∃ z, m.step x = .next z ∧ m.run n z = .next y := by
  unfold Host.Core.run at h
  split at h
  · exact ⟨_, ‹_›, h⟩
  · cases h
  · cases h

/-- A property that every step but a reset, INIT or REFRESH keeps holds up to the first of these. -/
theorem core_run_keeps_until_rewinds {P : State → Prop}
    (keep : ∀ u w, P u → u.rewinds = false → step u = .next w → P w) (n : Nat) (hs : P s)
    (h : core.run n s = .next t) (hrew : ∀ m u, m < n → core.run m s = .next u → u.rewinds = false) : P t := by
  induction n generalizing s with
  | zero => cases h; exact hs
  | succ n ih =>
    obtain ⟨u, hu, hrun⟩ := exists_step_of_run_succ core h
    have hfirst : s.rewinds = false := hrew 0 s n.succ_pos (core_run_zero s)
    exact ih (keep s u hs hfirst hu) hrun fun m w hm hw =>
      hrew (m + 1) w (Nat.succ_lt_succ hm) ((core_run_succ hu).trans hw)

/-- Settles O49: every step up to the reset, INIT or REFRESH stays in the window, and that step rewinds the block. -/
theorem quiescentWindowKeepsTheBlock : Obligations.QuiescentWindowKeepsTheBlock := by
  intro n s t hs hrole h hrew
  have ht : s.InWindow t := core_run_keeps_until_rewinds (P := s.InWindow) (fun _ _ => step_keeps_inWindow) n
    ⟨hs, hrole, sameBlock_refl s, rfl, rfl, rfl⟩ h hrew
  refine ⟨ht.quiescent, ht.block, ht.cfg, ht.producerQ, ht.consumerQ, fun hlast => ?_⟩
  obtain ⟨u, hu, hhead, htail, hstatus, hout⟩ := step_of_rewinds hlast
  obtain ⟨hp, hc⟩ := step_callerQueues (callerPresents_of_quiescent ht.quiescent) hu
  obtain ⟨-, -, -, -, -, hblockout⟩ := ht.block
  exact ⟨u, hu, hhead, htail, hstatus, hout.trans hblockout, hp.trans ht.producerQ, hc.trans ht.consumerQ⟩

end Sys2Proof.Machine

/-! PROOFS. Reset and hazards (spec/70_reset_and_hazards.md): the step with `rst = 1` (R160, R161), idle steps (R163), and
the reset, INIT or REFRESH of a buffer that need not be quiescent (R165). -/

namespace Sys2Proof.Machine

open StateLaws MemoryLaws OpsLaws

variable {s t u : State} {rest : List Edge}

/-! ## The response port of a step that performs nothing -/

/-- Both pins follow from the register: without a response `rsp_valid` and `rsp` are 0 (R64). -/
theorem staysSilent_iff : s.staysSilent t ↔ t.response = none ∧ t.responses = s.responses := by
  refine ⟨fun ⟨hnone, hkeep, _⟩ => ⟨hnone, hkeep⟩, fun ⟨hnone, hkeep⟩ => ⟨hnone, hkeep, ?_, ?_⟩⟩
  · rw [State.rspValid, hnone, Option.isSome_none]
  · simp [State.rsp, hnone]

/-! ## The reset step -/

theorem action_of_rstPin (hr : s.rstPin = true) : s.action = .reset := by
  rw [State.action, if_pos hr]

theorem step_of_rstPin (hr : s.rstPin = true) : step s = .next s.sampled.hardReset := by
  rw [step, action_of_rstPin hr]

/-- R160: a reset leaves the block of INIT, which reads no state; so it makes no difference that the edge is sampled. -/
theorem sameBlock_init_hardReset (s : State) : (s.initialise.respond .nothing).sameBlock s.sampled.hardReset :=
  ⟨fun _ => rfl, rfl, rfl, rfl, rfl, out_sampled s⟩

/-- Settles O34: the action of the edge is the reset whatever is presented, and the state after it is the initialised
one with the edge sampled. -/
theorem resetHasPriorityAndClears : Obligations.ResetHasPriorityAndClears := by
  intro s hr
  have hstep := step_of_rstPin hr
  exact ⟨_, hstep, staysSilent_iff.mpr ⟨rfl, responses_sampled s⟩, step_cfg hstep, rfl, rfl, read_nil, rfl,
    out_sampled s, inv_initialise s.sampled, ⟨_, rfl, sameBlock_init_hardReset s⟩, schedule_sampled s,
    fun a => (step_queue hstep a).trans (queue_sampled s a)⟩

/-! ## Idle steps -/

/-- From `s` to `t` nothing has happened but that edges have passed: no response, and the block, the configuration and
the operations still to come as they were. -/
structure State.IdlesTo (s t : State) : Prop where
  silent : s.staysSilent t
  block : s.sameBlock t
  cfg : t.cfg = s.cfg
  queue : ∀ a, t.queue a = s.queue a

theorem State.IdlesTo.trans (hst : s.IdlesTo t) (htu : t.IdlesTo u) : s.IdlesTo u := by
  obtain ⟨-, hkeep⟩ := staysSilent_iff.mp hst.silent
  obtain ⟨hnone, hkeep'⟩ := staysSilent_iff.mp htu.silent
  exact ⟨staysSilent_iff.mpr ⟨hnone, hkeep'.trans hkeep⟩, sameBlock_trans hst.block htu.block, htu.cfg.trans hst.cfg,
    fun a => (htu.queue a).trans (hst.queue a)⟩

/-- Where no command is presented, the agent served, if any, has no operation that could leave its queue. -/
theorem queue_sampled_of_cmdPin_none (hc : s.cmdPin = none) (a : Agent) : s.sampled.queue a = s.queue a := by
  rw [queue_sampled]
  split
  case isTrue hgrant =>
    have hnil : s.queue a = [] := by simpa [State.cmdPin, hgrant] using hc
    rw [hnil, List.tail_nil]
  case isFalse => rfl

theorem step_of_idle (hr : s.rstPin = false) (hc : s.cmdPin = none) : step s = .next s.sampled.quiet := by
  have hact : s.action = .idle := by simp [State.action, hr, hc]
  rw [step, hact]

/-- R163; the edge itself is past. -/
theorem exists_step_of_idle (hr : s.rstPin = false) (hc : s.cmdPin = none) :
    ∃ t, step s = .next t ∧ s.IdlesTo t ∧ t.schedule = s.schedule.tail := by
  have hstep := step_of_idle hr hc
  exact ⟨_, hstep, ⟨staysSilent_iff.mpr ⟨rfl, responses_sampled s⟩, sameBlock_sampled s, step_cfg hstep,
    fun a => (step_queue hstep a).trans (queue_sampled_of_cmdPin_none hc a)⟩, schedule_sampled s⟩

theorem exists_step_of_idle_edge (h : s.schedule = ⟨false, none⟩ :: rest) :
    ∃ t, step s = .next t ∧ s.IdlesTo t ∧ t.schedule = rest := by
  have hedge : s.edge = ⟨false, none⟩ := by rw [State.edge, h]
  obtain ⟨t, ht, hidle, hsched⟩ := exists_step_of_idle (s := s) (by rw [State.rstPin, hedge])
    (by rw [State.cmdPin, hedge])
  exact ⟨t, ht, hidle, hsched.trans (congrArg List.tail h)⟩

/-- One edge more is one idle step before the others. -/
theorem core_run_idle (n : Nat) (h : s.schedule = List.replicate (n + 1) ⟨false, none⟩ ++ rest) :
    ∃ t, core.run (n + 1) s = .next t ∧ s.IdlesTo t ∧ t.schedule = rest := by
  induction n generalizing s with
  | zero =>
    obtain ⟨t, ht, hidle, hsched⟩ := exists_step_of_idle_edge h
    exact ⟨t, core_run_succ ht, hidle, hsched⟩
  | succ n ih =>
    obtain ⟨u, hu, hfirst, husched⟩ := exists_step_of_idle_edge h
    obtain ⟨t, ht, hidle, hsched⟩ := ih husched
    exact ⟨t, (core_run_succ hu).trans ht, hfirst.trans hidle, hsched⟩

/-- Settles O35, by the idle step and an induction over the edges. -/
theorem idleStepsChangeNothing : Obligations.IdleStepsChangeNothing := by
  constructor
  · intro s hr hc
    obtain ⟨t, ht, hidle, hsched⟩ := exists_step_of_idle hr hc
    exact ⟨t, ht, hidle.silent, hidle.block, hidle.cfg, hidle.queue, hsched⟩
  · intro n s rest h
    obtain ⟨t, ht, hidle, hsched⟩ := core_run_idle n h
    exact ⟨t, ht, hidle.silent, hidle.block, hidle.cfg, hidle.queue, hsched⟩

/-! ## A reset, INIT or REFRESH at any time -/

/-- An empty buffer has room: `CAPACITY` is at least 1. -/
theorem exec_put_of_occ_eq_zero (v : Element) (h : s.occ = 0) :
    ∃ u, exec (.put v) s = .next u ∧ u.response = some (.status (statusCode .ok)) := by
  have hne : s.occ ≠ s.cfg.capacity := h ▸ Nat.ne_of_lt s.cfg.capacity_pos
  exact ⟨_, exec_put_of_occ_ne_capacity v hne, rfl⟩

/-- Settles O50: the step leaves equal counters, whatever the callers were about to do, so the next PUT finds room and
the next GET nothing. -/
theorem uncoordinatedInitHasADefinedResult : Obligations.UncoordinatedInitHasADefinedResult := by
  intro s hrew
  obtain ⟨t, ht, hhead, htail, hstatus, hout⟩ := step_of_rewinds hrew
  have hocc : t.occ = 0 := occ_eq_zero_of_head_eq_tail (hhead.trans htail.symm)
  exact ⟨t, ht, contents_eq_nil hocc, hstatus, fun v => exec_put_of_occ_eq_zero v hocc,
    _, exec_get_of_occ_eq_zero hocc, rfl, hout⟩

end Sys2Proof.Machine

/-! PROOFS. What the counters and the store hold over a run: the counters are the numbers of successful PUTs and GETs
(R34, R86), and PUTs into an empty buffer followed by GETs keep their order (R104). -/

namespace Sys2Proof.Machine

open StateLaws CounterLaws OpsLaws

variable {s t : State} {i : Instr} {n : Tally}

/-! ## The counters count the successful PUTs and GETs -/

theorem Tally.after_of_isQuery (hq : i.isQuery = true) (answer : Option Result) (n : Tally) : n.after i answer = n := by
  cases i with
  | count | isfull | isempty | peek | getstatus => rfl
  | init | refresh | get | put => cases hq

theorem Tally.after_get_empty (n : Tally) : n.after .get (some (.status (statusCode .empty))) = n := rfl

theorem Tally.after_put_full (v : Element) (n : Tally) : n.after (.put v) (some (.status (statusCode .full))) = n := rfl

/-- Counting modulo `M` is what the increment of a counter does. -/
theorem inc_mod_modulus (c : Config) (k : Nat) : Counter.inc c (k % c.modulus) = (k + 1) % c.modulus :=
  Nat.mod_add_mod k c.modulus 1

theorem countedBy_zero (hhead : s.head = 0) (htail : s.tail = 0) : s.countedBy ⟨0, 0⟩ :=
  ⟨hhead.trans (Nat.zero_mod _).symm, htail.trans (Nat.zero_mod _).symm, le_rfl, Nat.zero_le _⟩

/-- A PUT finds room, so one more element is still no more than `CAPACITY`. -/
theorem countedBy_advanceHead (h : s.countedBy n) (hocc : s.occ ≠ s.cfg.capacity) :
    s.advanceHead.countedBy { n with puts := n.puts + 1 } := by
  rw [occ_of_countedBy h] at hocc
  obtain ⟨hhead, htail, hle, hcap⟩ := h
  refine ⟨?_, htail, hle.trans (Nat.le_succ _), ?_⟩
  · rw [head_advanceHead, hhead, inc_mod_modulus, cfg_advanceHead]
  · rw [cfg_advanceHead, Nat.succ_sub hle]
    exact lt_of_le_of_ne hcap hocc

/-- A GET finds an element, so the GETs stay no more than the PUTs. -/
theorem countedBy_advanceTail (h : s.countedBy n) (hocc : s.occ ≠ 0) :
    s.advanceTail.countedBy { n with gets := n.gets + 1 } := by
  rw [occ_of_countedBy h] at hocc
  obtain ⟨hhead, htail, -, hcap⟩ := h
  refine ⟨hhead, ?_, Nat.lt_of_sub_ne_zero hocc, (Nat.sub_le_sub_left (Nat.le_succ _) _).trans hcap⟩
  rw [tail_advanceTail, htail, inc_mod_modulus, cfg_advanceTail]

theorem exec_keeps_countedBy (h : exec i s = .next t) (hn : s.countedBy n) :
    t.countedBy (n.after i t.response) := by
  cases performs_of_exec h with
  | query hq r => rw [Tally.after_of_isQuery hq]; exact hn
  | init | refresh => exact countedBy_zero rfl rfl
  | getEmpty => exact (Tally.after_get_empty n).symm ▸ hn
  | putFull v => exact (Tally.after_put_full v n).symm ▸ hn
  | getOk hocc => exact countedBy_advanceTail hn hocc
  | putOk v hocc => exact countedBy_advanceHead hn hocc

/-- Settles O44: the operations one by one; the count is `occ_of_countedBy`. -/
theorem occupancyCountsOutstandingElements : Obligations.OccupancyCountsOutstandingElements :=
  ⟨fun _ _ => countedBy_zero rfl rfl, fun _ _ => occ_of_countedBy, fun _ _ _ _ hn h => exec_keeps_countedBy h hn⟩

/-! ## PUTs, then GETs -/

/-- The first `n` elements from `tail` on lie in `n` slots. -/
def State.DistinctSlots (s : State) (n : Nat) : Prop := ∀ j k, j < k → k < n → s.slotAt j ≠ s.slotAt k

/-- R104's three ways out: two of the elements share a slot only across the counter wrap and `R_WRAP` apart. -/
theorem distinctSlots_of_proviso {n : Nat} (ht : s.tail < s.cfg.modulus) (hcap : n ≤ s.cfg.capacity)
    (hor : s.cfg.WrapSafe ∨ s.tail + n ≤ s.cfg.modulus ∨ n ≤ s.cfg.rWrap) : s.DistinctSlots n := by
  intro j k hjk hk heq
  obtain ⟨-, hwrap, hdist⟩ := (slotAt_eq_slotAt_iff ht hjk (hk.trans_le hcap)).mp heq
  rcases hor with hsafe | hbelow | hfew
  · have hzero : s.cfg.rWrap = 0 := hsafe
    omega
  · omega
  · omega

/-- PUTs into free slots append their elements, in order. -/
theorem performAll_puts {vs : List Element} (hr : s.inRange = true) (hroom : s.occ + vs.length ≤ s.cfg.capacity)
    (hslots : s.DistinctSlots (s.occ + vs.length)) :
    ∃ t, performAll (vs.map .put) s = .next t ∧ t.inRange = true ∧ t.contents = s.contents ++ vs ∧
      t.responses = s.responses ++ List.replicate vs.length (.status (statusCode .ok)) := by
  induction vs generalizing s with
  | nil => exact ⟨s, rfl, hr, (List.append_nil _).symm, (List.append_nil _).symm⟩
  | cons v vs ih =>
    rw [List.length_cons] at hroom hslots
    have hlt : s.occ < s.cfg.capacity := by omega
    have hput := exec_put_of_occ_ne_capacity v hlt.ne
    have hlength : s.occ + (vs.length + 1) = s.occ + 1 + vs.length := by omega
    have hfree : ∀ k < s.occ, s.slotAt k ≠ s.writeSlot := fun k hk =>
      slotAt_occ hr ▸ hslots k s.occ hk (by omega)
    rw [hlength, ← occ_putOk hr hlt v] at hroom hslots
    obtain ⟨t, ht, htr, htc, htresp⟩ := ih (exec_keeps_inRange hput hr) hroom hslots
    refine ⟨t, (performAll_cons hput).trans ht, htr, ?_, ?_⟩
    · rw [htc, contents_report, contents_write_advanceHead v hr hlt hfree, List.append_assoc]
      rfl
    · rw [htresp, responses_report, List.append_assoc]
      rfl

/-- Settles O21: the PUTs leave exactly their elements as the contents, and each GET takes the first of these. -/
theorem putsThenGetsKeepFifoOrder : Obligations.PutsThenGetsKeepFifoOrder := by
  intro vs s hr heq hcap hor
  obtain ⟨-, htail, -, -⟩ := inRange_iff.mp hr
  have hocc : s.occ = 0 := occ_eq_zero_of_head_eq_tail heq
  have hlength : s.occ + vs.length = vs.length := by rw [hocc, Nat.zero_add]
  have hslots : s.DistinctSlots vs.length := distinctSlots_of_proviso htail hcap (heq ▸ hor)
  obtain ⟨t, ht, htr, htc, htresp⟩ := performAll_puts hr (hlength.trans_le hcap) (hlength.symm ▸ hslots)
  rw [contents_eq_nil hocc, List.nil_append] at htc
  refine ⟨⟨t, ht, htresp⟩, fun k hk => ?_⟩
  obtain ⟨u, hu, hout, hresponse, -⟩ := performAll_gets_out htr (k := k) (htc.symm ▸ hk)
  exact ⟨u, (performAll_append ht).trans hu, by simpa only [htc] using hout, hresponse⟩

end Sys2Proof.Machine
